-- ==== Sys2Proof/Word.lean ====
section
/-! DEFINITION. The machine's word and byte (00_scope R6 to R8): every register value, address and result is
`bits(32)`, a byte has 8 bits (20_memory R33). `UInt` and `SInt` of the spec's notation (00_scope R9) are
`BitVec.toNat` and `BitVec.toInt`, `NOT` is `~~~`, `a : b` is `a ++ b`. -/
namespace Sys2Proof

/-- A byte of program memory (10_state R24). -/
abbrev Byte := BitVec 8

/-- A register value, an address or an instruction word (00_scope R6, R7). -/
abbrev Word := BitVec 32

end Sys2Proof
end

