-- ==== Sys2Proof/Syntax.lean ====
section
/-! DEFINITION. The instructions: one constructor of `Instr` per row of spec/opcode_table.json (30_encoding R42). -/
namespace Sys2Proof

/-- A register number of a 4-bit field, 0 to 15; 15 names the PC (10_state R13). -/
abbrev RegNum := Fin 16

/-- The condition of an instruction (40_shared_operations R59); `1111` is not a condition of this instruction
(30_encoding R41), so it has no constructor. -/
inductive Cond where
  | eq | ne | cs | cc | mi | pl | vs | vc | hi | ls | ge | lt | gt | le | al
  deriving DecidableEq, Repr

/-- The `stype` field, by the `<shift>` value table (30_encoding R55). -/
inductive SType where
  | lsl | lsr | asr | ror
  deriving DecidableEq, Repr

/-- The shift types of the pseudocode, `SRType` (00_scope R8). -/
inductive SRType where
  | lsl | lsr | asr | ror | rrx
  deriving DecidableEq, Repr

/-- The four encodings of class A1 (30_encoding R42). -/
inductive Instr where
  /-- `RSC_r_A1_RRX` (41 R74): RSC, rotate right with extend. -/
  | rscRrx (cond : Cond) (rd rn rm : RegNum)
  /-- `RSC_r_A1` (41 R75): RSC, shift or rotate by value. -/
  | rsc (cond : Cond) (rd rn rm : RegNum) (stype : SType) (imm5 : BitVec 5)
  /-- `RSCS_r_A1_RRX` (41 R76): RSCS, rotate right with extend. -/
  | rscsRrx (cond : Cond) (rd rn rm : RegNum)
  /-- `RSCS_r_A1` (41 R77): RSCS, shift or rotate by value. -/
  | rscs (cond : Cond) (rd rn rm : RegNum) (stype : SType) (imm5 : BitVec 5)
  deriving DecidableEq, Repr

/-- The condition field (30_encoding R38). -/
def Instr.cond : Instr → Cond
  | .rscRrx c _ _ _ => c
  | .rsc c _ _ _ _ _ => c
  | .rscsRrx c _ _ _ => c
  | .rscs c _ _ _ _ _ => c

/-- The destination register `d` (30_encoding R46). -/
def Instr.rd : Instr → RegNum
  | .rscRrx _ d _ _ => d
  | .rsc _ d _ _ _ _ => d
  | .rscsRrx _ d _ _ => d
  | .rscs _ d _ _ _ _ => d

/-- The first source register `n` (30_encoding R46). -/
def Instr.rn : Instr → RegNum
  | .rscRrx _ _ n _ => n
  | .rsc _ _ n _ _ _ => n
  | .rscsRrx _ _ n _ => n
  | .rscs _ _ n _ _ _ => n

/-- The second source register `m` (30_encoding R46). -/
def Instr.rm : Instr → RegNum
  | .rscRrx _ _ _ m => m
  | .rsc _ _ _ m _ _ => m
  | .rscsRrx _ _ _ m => m
  | .rscs _ _ _ m _ _ => m

/-- `setflags` (30_encoding R46): true for the two RSCS encodings. -/
def Instr.setflags : Instr → Bool
  | .rscRrx _ _ _ _ => false
  | .rsc _ _ _ _ _ _ => false
  | .rscsRrx _ _ _ _ => true
  | .rscs _ _ _ _ _ _ => true

end Sys2Proof
end

