-- ==== Sys2Proof/WellFormed.lean ====
section
/-! DEFINITION. Which terms of `Instr` are instructions: the one check beyond the types is that the "shift or rotate
by value" encodings exclude `imm5:stype = 0000011`, the RRX pattern (30_encoding R42, R44). Deprecated uses are flagged
by name and not refused (70_reset_and_hazards R108, 92 D20). -/
namespace Sys2Proof

/-- `imm5 == 00000 && stype == 11`: the pattern that belongs to the RRX encodings (30_encoding R42). -/
def isRrxPattern (stype : SType) (imm5 : BitVec 5) : Bool :=
  decide (stype = .ror) && decide (imm5 = 0#5)

/-- The encodings "shift or rotate by value" do not hold the RRX pattern (30_encoding R42, R44). -/
def Instr.wellFormed : Instr → Bool
  | .rscRrx _ _ _ _ => true
  | .rsc _ _ _ _ stype imm5 => !isRrxPattern stype imm5
  | .rscsRrx _ _ _ _ => true
  | .rscs _ _ _ _ stype imm5 => !isRrxPattern stype imm5

/-- The deprecated uses, by the names of 70_reset_and_hazards R108. -/
inductive Deprecation where
  /-- `DeprecatedPCDestination`: the PC as Rd. -/
  | pcDestination
  /-- `DeprecatedPCSource`: the PC as Rn or Rm. -/
  | pcSource
  deriving DecidableEq, Repr

/-- The deprecated uses an instruction makes; none of them changes its meaning (70_reset_and_hazards R108). -/
def Instr.deprecations (i : Instr) : List Deprecation :=
  (if i.rd = 15 then [Deprecation.pcDestination] else []) ++
    (if i.rn = 15 ∨ i.rm = 15 then [Deprecation.pcSource] else [])

end Sys2Proof
end

