-- ==== Sys2Proof/Decode.lean ====
section
/-! DEFINITION. The decoder, total on any bytes and rejecting by name (30_encoding R38 to R46, R50; 20_memory R33),
and the encoder written from the same table of fields (30_encoding R38). -/
namespace Sys2Proof

/-- Why a list of bytes is not an instruction of this hardware. -/
inductive DecodeError where
  /-- Fewer than the four bytes of an instruction word (30_encoding R37). -/
  | tooShort (bytes : Nat)
  /-- The fixed bits of class A1 are not there (30_encoding R40 step 1, R50). -/
  | notClassA1 (w : Word)
  /-- `cond == 1111` (30_encoding R40 step 2, R41). -/
  | condition1111 (w : Word)
  deriving DecidableEq, Repr

/-- `cond`, bits 31:28 (30_encoding R38). -/
def fieldCond (w : Word) : BitVec 4 := w.extractLsb' 28 4
/-- `S`, bit 20 (30_encoding R38). -/
def fieldS (w : Word) : BitVec 1 := w.extractLsb' 20 1
/-- `Rn`, bits 19:16 (30_encoding R38). -/
def fieldRn (w : Word) : BitVec 4 := w.extractLsb' 16 4
/-- `Rd`, bits 15:12 (30_encoding R38). -/
def fieldRd (w : Word) : BitVec 4 := w.extractLsb' 12 4
/-- `imm5`, bits 11:7 (30_encoding R38). -/
def fieldImm5 (w : Word) : BitVec 5 := w.extractLsb' 7 5
/-- `stype`, bits 6:5 (30_encoding R38). -/
def fieldStype (w : Word) : BitVec 2 := w.extractLsb' 5 2
/-- `Rm`, bits 3:0 (30_encoding R38). -/
def fieldRm (w : Word) : BitVec 4 := w.extractLsb' 0 4

/-- The condition of a `cond` field; `1111` is none (30_encoding R41, 40_shared_operations R59). -/
def condOfBits (b : BitVec 4) : Option Cond :=
  match b.toNat with
  | 0 => some .eq | 1 => some .ne | 2 => some .cs | 3 => some .cc
  | 4 => some .mi | 5 => some .pl | 6 => some .vs | 7 => some .vc
  | 8 => some .hi | 9 => some .ls | 10 => some .ge | 11 => some .lt
  | 12 => some .gt | 13 => some .le | 14 => some .al | _ => none

/-- The `cond` field of a condition (40_shared_operations R59). -/
def condBits : Cond → BitVec 4
  | .eq => 0b0000#4 | .ne => 0b0001#4 | .cs => 0b0010#4 | .cc => 0b0011#4
  | .mi => 0b0100#4 | .pl => 0b0101#4 | .vs => 0b0110#4 | .vc => 0b0111#4
  | .hi => 0b1000#4 | .ls => 0b1001#4 | .ge => 0b1010#4 | .lt => 0b1011#4
  | .gt => 0b1100#4 | .le => 0b1101#4 | .al => 0b1110#4

/-- The shift type of a `stype` field (30_encoding R55). -/
def stypeOfBits (b : BitVec 2) : SType :=
  match b.toNat with
  | 0 => .lsl | 1 => .lsr | 2 => .asr | _ => .ror

/-- The `stype` field of a shift type (30_encoding R55). -/
def stypeBits : SType → BitVec 2
  | .lsl => 0b00#2 | .lsr => 0b01#2 | .asr => 0b10#2 | .ror => 0b11#2

/-- `UInt` of a register field (30_encoding R46). -/
def regOfBits (b : BitVec 4) : RegNum := b.toFin

/-- The register field of a register number. -/
def regBits (r : RegNum) : BitVec 4 := BitVec.ofFin r

/-- The fixed bits of class A1 (30_encoding R39). -/
def hasClassBits (w : Word) : Bool := w &&& 0x0FE00010#32 == 0x00E00000#32

/-- The encoding within class A1, by `S` and by whether `imm5:stype` is `0000011` (30_encoding R42). -/
def selectEncoding (c : Cond) (w : Word) : Instr :=
  let rd := regOfBits (fieldRd w)
  let rn := regOfBits (fieldRn w)
  let rm := regOfBits (fieldRm w)
  let stype := stypeOfBits (fieldStype w)
  let imm5 := fieldImm5 w
  if isRrxPattern stype imm5 then
    if fieldS w = 1#1 then .rscsRrx c rd rn rm else .rscRrx c rd rn rm
  else
    if fieldS w = 1#1 then .rscs c rd rn rm stype imm5 else .rsc c rd rn rm stype imm5

/-- The decoding procedure of 30_encoding R40 on a fetched word. -/
def decodeWord (w : Word) : Except DecodeError Instr :=
  if hasClassBits w then
    match condOfBits (fieldCond w) with
    | some c => .ok (selectEncoding c w)
    | none => .error (.condition1111 w)
  else .error (.notClassA1 w)

/-- A word from its four bytes at ascending addresses, little-endian (20_memory R33). -/
def wordOfBytes (b0 b1 b2 b3 : Byte) : Word := b3 ++ b2 ++ b1 ++ b0

/-- Byte `k` of a word, byte 0 the one at the lowest address (20_memory R33). -/
def byteOfWord (w : Word) (k : Nat) : Byte := w.extractLsb' (8 * k) 8

/-- The bytes of a word at ascending addresses (20_memory R33). -/
def bytesOfWord (w : Word) : List Byte := [byteOfWord w 0, byteOfWord w 1, byteOfWord w 2, byteOfWord w 3]

/-- The decoder on bytes: the instruction at the head of the list and the bytes after it. -/
def decode : List Byte → Except DecodeError (Instr × List Byte)
  | b0 :: b1 :: b2 :: b3 :: rest =>
    match decodeWord (wordOfBytes b0 b1 b2 b3) with
    | .ok i => .ok (i, rest)
    | .error e => .error e
  | bs => .error (.tooShort bs.length)

/-- The word of class A1 with the given fields (30_encoding R38). -/
def packA1 (cond : BitVec 4) (sbit : BitVec 1) (rn rd : BitVec 4) (imm5 : BitVec 5) (stype : BitVec 2)
    (rm : BitVec 4) : Word :=
  cond ++ 0b0000#4 ++ 0b111#3 ++ sbit ++ rn ++ rd ++ imm5 ++ stype ++ 0b0#1 ++ rm

/-- The word of an instruction (30_encoding R38, R42). -/
def encode : Instr → Word
  | .rscRrx c rd rn rm => packA1 (condBits c) 0#1 (regBits rn) (regBits rd) 0b00000#5 0b11#2 (regBits rm)
  | .rsc c rd rn rm st imm5 => packA1 (condBits c) 0#1 (regBits rn) (regBits rd) imm5 (stypeBits st) (regBits rm)
  | .rscsRrx c rd rn rm => packA1 (condBits c) 1#1 (regBits rn) (regBits rd) 0b00000#5 0b11#2 (regBits rm)
  | .rscs c rd rn rm st imm5 => packA1 (condBits c) 1#1 (regBits rn) (regBits rd) imm5 (stypeBits st) (regBits rm)

/-- The bytes of an instruction at ascending addresses. -/
def encodeBytes (i : Instr) : List Byte := bytesOfWord (encode i)

/-- The instruction this decoder reads from the word `w` as spec/opcode_table.json numbers its bits, those above
`nbits` taken as zero, laid out in bytes as the hardware stores them. -/
def decodeTableWord (nbits w : Nat) : Option Instr :=
  match decode (bytesOfWord (BitVec.ofNat 32 (w % 2 ^ nbits))) with
  | .ok (i, _) => some i
  | .error _ => none

end Sys2Proof
end

