-- ==== Sys2Proof/Config.lean ====
section
/-! DEFINITION. What an implementation fixes (00_scope R6, 10_state R20, R21, 60_exceptions R97, R100) and the free
values of the model (60_exceptions R96). None of these constants has a body, so nothing
can be proved from a value of one: a claim holds for every implementation and every free value. -/
namespace Sys2Proof

/-- The nine AArch32 modes (60_exceptions R100). -/
inductive Mode where
  | user | fiq | irq | supervisor | monitor | abort | hyp | undefined | system
  deriving DecidableEq, Repr

/-- `cfg.haveHyp`: whether Hyp mode (EL2) is implemented (00_scope R6, 92 D11; entry 8). -/
opaque Config.haveHyp : Bool

/-- Whether Monitor mode is implemented: EL3 exists and uses AArch32 (60_exceptions R100; entry 8). -/
opaque Config.haveMonitor : Bool

/-- `cfg.haveDIT`: whether PSTATE.DIT is implemented (00_scope R6, 10_state R20; entry 8). -/
opaque Config.haveDIT : Bool

/-- Whether PSTATE.SSBS is implemented (10_state R21, 60_exceptions R96 "where implemented"; entry 8). -/
opaque Config.haveSSBS : Bool

/-- Whether PSTATE.PAN is implemented (10_state R21, 60_exceptions R96 "where implemented"; entry 8). -/
opaque Config.havePAN : Bool

/-- `IllegalReturn(spsr, mode, cfg)`: whether an exception return with this saved status from this mode is an
illegal return event (60_exceptions R97, 92 D22; entry 7). -/
opaque Config.illegalReturn : Word → Mode → Bool

/-- FREE VALUE. The choice of 60_exceptions R96 at the n-th draw: after a return that leaves PSTATE.IL = 1, `true`
restores T from the SPSR and `false` makes it 0 (entry 14). -/
opaque Config.illegalStateKeepsT : Nat → Bool

/-- FREE VALUE. The UNKNOWN PSTATE.SSBS of an illegal return (60_exceptions R96; entry 14). -/
opaque Config.freeSSBS : Nat → Bool

/-- FREE VALUE. The UNKNOWN bits [1:0] of the PC after a return that leaves PSTATE.IL = 1 (60_exceptions R96;
entry 14). -/
opaque Config.freePCBits : Nat → BitVec 2

end Sys2Proof
end

