-- ==== Sys2Proof/Machine/State.lean ====
section
/-! DEFINITION. The machine's state as plain data (10_state R13 to R22, R25, R27; 20_memory R29; 70 R111), the reasons
a step stops (00_scope R11) and the state after reset (10_state R27, last column; entries 16 to 18). -/
namespace Sys2Proof.Machine

/-- The general-purpose registers with their banked copies (10_state R14). -/
structure RegFile where
  /-- R0 to R14 of User and System mode. -/
  usr : Vector Word 15
  /-- R8_fiq to R14_fiq. -/
  fiq : Vector Word 7
  /-- R13_irq, R14_irq. -/
  irq : Vector Word 2
  /-- R13_svc, R14_svc. -/
  svc : Vector Word 2
  /-- R13_mon, R14_mon. -/
  mon : Vector Word 2
  /-- R13_abt, R14_abt. -/
  abt : Vector Word 2
  /-- R13_und, R14_und. -/
  und : Vector Word 2
  /-- R13_hyp; Hyp mode uses the User R14. -/
  hypSp : Word
  deriving DecidableEq, Repr

/-- One physical register: a bank and an index in it, index 0 of a two-register bank being R13 and index 0 of the FIQ
bank R8 (10_state R14). -/
inductive PhysReg where
  | usr (i : Fin 15)
  | fiq (i : Fin 7)
  | irq (i : Fin 2)
  | svc (i : Fin 2)
  | mon (i : Fin 2)
  | abt (i : Fin 2)
  | und (i : Fin 2)
  | hypSp
  deriving DecidableEq, Repr

/-- The Saved Program Status Registers; User and System mode have none (10_state R22, 60_exceptions R100). -/
structure SpsrFile where
  fiq : Word
  irq : Word
  svc : Word
  mon : Word
  abt : Word
  hyp : Word
  und : Word
  deriving DecidableEq, Repr

/-- PSTATE (10_state R17 to R21). The bit J is reserved and zero and has no field (entry 21). -/
structure PState where
  n : Bool
  z : Bool
  c : Bool
  v : Bool
  q : Bool
  it : BitVec 8
  ssbs : Bool
  pan : Bool
  dit : Bool
  il : Bool
  ge : BitVec 4
  e : Bool
  a : Bool
  i : Bool
  f : Bool
  /-- Instruction-set state: `false` A32, `true` T32 (10_state R19). -/
  t : Bool
  /-- The mode (10_state R18, 92 D11). -/
  m : Mode
  deriving DecidableEq, Repr

/-- The bytes of the fetch space that hold something, by strictly rising address (10_state R24, 20_memory R29). -/
abbrev Memory := List Host.Cell

/-- The state of the PE and of its launch. -/
structure State where
  regs : RegFile
  /-- The address of the instruction being executed (10_state R15). -/
  pc : Word
  pstate : PState
  spsr : SpsrFile
  /-- The local exclusive monitor holds a reservation (10_state R25, 60_exceptions R96; entry 18). -/
  exclusiveMonitor : Bool
  /-- The local event register (10_state R25, 60_exceptions R96, R102; entry 18). -/
  eventRegister : Bool
  /-- `launch.prog`, held as bytes (20_memory R29, R33; entry 3). -/
  mem : Memory
  /-- `launch.endAddr`, where the launch names one: a multiple of 4 (70 R111; entry 4, `Inv.endAligned`). -/
  endAddr : Option Word
  /-- THE MODEL'S OWN: how many free values have been drawn (entry 13). -/
  freeCount : Nat
  deriving DecidableEq, Repr

/-- What makes the PE take an Undefined Instruction exception. -/
inductive UndefinedCause where
  /-- The instruction is UNDEFINED: RSCS with Rd = PC in Hyp mode (40 R71, 60 R90). -/
  | instruction
  /-- PSTATE.IL is 1: the Illegal Execution state exception, taken as an Undefined Instruction exception (60 R92,
  R97). -/
  | illegalState
  deriving DecidableEq, Repr

/-- Why the machine stops with a fault: the faults of the list of 00_scope R11, and its "stuck". All are SAFE: the run
ends where a chip might go on, and no claim that needs a next state can be proved of it. -/
inductive Fault where
  /-- Raised by `raiseUndefined`, which records the pc (92 D8), from `aluExceptionReturn` and `fetchInstr` (entries 11,
  12). Safe: the entry into the handler is in no source. -/
  | undefinedInstruction (pc : Word) (cause : UndefinedCause)
  /-- Raised by `aluExceptionReturn`: RSCS with Rd = PC in User or System mode (40 R71, 60 R91, 92 D9; entry 9).
  Safe. -/
  | constrainedUnpredictableALUExceptionReturn
  /-- Raised by `aluWritePC`: an interworking branch to an address with bits [1:0] = 10 (40 R70, 60 R92, 92 D7; entry
  10). Safe. -/
  | constrainedUnpredictableBranchToUnalignedA32
  /-- Raised by `fetchInstr`: the PC alignment fault of A32 state (20 R32, 92 D5). Safe. -/
  | pcMisalignedAtFetch
  /-- Raised by `State.advance`: `pc + 4` overflows the address space (10 R16; entry 15). Safe. -/
  | addressSpaceWrap
  /-- Raised by `fetchInstr`: no program word at the pc; the spec's "stuck" (20 R30; entry 3). Safe. -/
  | noProgramWord
  deriving DecidableEq, Repr

/-- Why the machine has no meaning for what it was asked to run. All are SAFE: the run has left what the spec
describes (00_scope R9, R11). -/
inductive Refusal where
  /-- Raised by an arm of `exec` that has no meaning yet; no arm raises it in this model. Safe. -/
  | notModelled (mnemonic : String)
  /-- Raised by `fetchInstr`: the fetched word is not one of the four encodings (30 R50; entry 1). Safe. -/
  | notRSCRegister (w : Word)
  /-- Raised by `fetchInstr`: PSTATE.T = 1 selects the T32 instruction set, which no source describes (20 R31;
  entry 24). Safe. -/
  | leftA32State
  deriving DecidableEq, Repr

/-- All registers zero (entry 17). -/
def RegFile.reset : RegFile where
  usr := Vector.replicate 15 0#32
  fiq := Vector.replicate 7 0#32
  irq := Vector.replicate 2 0#32
  svc := Vector.replicate 2 0#32
  mon := Vector.replicate 2 0#32
  abt := Vector.replicate 2 0#32
  und := Vector.replicate 2 0#32
  hypSp := 0#32

/-- The family's PSTATE after reset (10_state R27, last column, R105): Supervisor mode, A32, A, I and F masked, the
rest zero (entries 16, 17). -/
def PState.reset : PState where
  n := false
  z := false
  c := false
  v := false
  q := false
  it := 0#8
  ssbs := false
  pan := false
  dit := false
  il := false
  ge := 0#4
  e := false
  a := true
  i := true
  f := true
  t := false
  m := .supervisor

/-- The machine right after reset; nothing is loaded (10_state R27, 70 R104 to R106; entries 16 to 18, 20). -/
def State.reset : State where
  regs := RegFile.reset
  pc := 0#32
  pstate := PState.reset
  spsr := ⟨0#32, 0#32, 0#32, 0#32, 0#32, 0#32, 0#32⟩
  exclusiveMonitor := false
  eventRegister := false
  mem := []
  endAddr := none
  freeCount := 0

end Sys2Proof.Machine
end

