-- ==== Sys2Proof/Machine/Flags.lean ====
section
/-! DEFINITION. The condition check and the addition with carry that computes the flags (40_shared_operations R59,
R66). -/
namespace Sys2Proof.Machine

/-- The condition selected by `cond[3:1]` (40_shared_operations R59). -/
def condBase (group : BitVec 3) (p : PState) : Bool :=
  match group.toNat with
  | 0 => p.z
  | 1 => p.c
  | 2 => p.n
  | 3 => p.v
  | 4 => p.c && !p.z
  | 5 => p.n == p.v
  | 6 => p.n == p.v && !p.z
  | _ => true

/-- `ConditionPassed` on the `cond` field: `cond[0]` inverts, but not for `1111` (40_shared_operations R59). -/
def conditionHolds (cond : BitVec 4) (p : PState) : Bool :=
  let r := condBase (cond.extractLsb' 1 3) p
  if cond.getLsbD 0 && cond != 0b1111#4 then !r else r

/-- `ConditionPassed()` of an instruction with condition `c` (40_shared_operations R59). -/
def conditionPassed (c : Cond) (p : PState) : Bool := conditionHolds (condBits c) p

/-- The 4-bit vector `n : z : c : v` (00_scope R8, 40_shared_operations R66). -/
def nzcvOf (n z c v : Bool) : BitVec 4 :=
  BitVec.ofBool n ++ BitVec.ofBool z ++ BitVec.ofBool c ++ BitVec.ofBool v

/-- `AddWithCarry`: exact sums, then narrowing (40_shared_operations R66). -/
def addWithCarry (x y : Word) (carryIn : Bool) : Word × BitVec 4 :=
  let unsignedSum : Nat := x.toNat + y.toNat + carryIn.toNat
  let signedSum : Int := x.toInt + y.toInt + carryIn.toNat
  let result : Word := BitVec.ofNat 32 unsignedSum
  (result, nzcvOf result.msb (result == 0#32) (result.toNat != unsignedSum) (result.toInt != signedSum))

/-- `PSTATE.<N,Z,C,V> = nzcv` (41_rsc_register R73). -/
def PState.withFlags (p : PState) (nzcv : BitVec 4) : PState :=
  { p with n := nzcv.getLsbD 3, z := nzcv.getLsbD 2, c := nzcv.getLsbD 1, v := nzcv.getLsbD 0 }

end Sys2Proof.Machine
end

