-- ==== Sys2Proof/Machine/Operands.lean ====
section
/-! DEFINITION. The operand forms: the immediate shift and the shifts it selects (30_encoding R47, R48;
40_shared_operations R62 to R65), and which physical register a register number names (10_state R14). -/
namespace Sys2Proof.Machine

/-- `DecodeImmShift` (30_encoding R47). -/
def decodeImmShift (stype : SType) (imm5 : BitVec 5) : SRType × Nat :=
  match stype with
  | .lsl => (.lsl, imm5.toNat)
  | .lsr => (.lsr, if imm5 = 0#5 then 32 else imm5.toNat)
  | .asr => (.asr, if imm5 = 0#5 then 32 else imm5.toNat)
  | .ror => if imm5 = 0#5 then (.rrx, 1) else (.ror, imm5.toNat)

/-- The shift type and amount that the decode of an instruction computes (30_encoding R46, 41_rsc_register R74 to
R77). -/
def immShift : Instr → SRType × Nat
  | .rscRrx _ _ _ _ => (.rrx, 1)
  | .rsc _ _ _ _ stype imm5 => decodeImmShift stype imm5
  | .rscsRrx _ _ _ _ => (.rrx, 1)
  | .rscs _ _ _ _ stype imm5 => decodeImmShift stype imm5

/-- Logical shift left (40_shared_operations R63). -/
def lslWord (v : Word) (amount : Nat) : Word := BitVec.ofNat 32 (v.toNat * 2 ^ amount)

/-- Logical shift right (40_shared_operations R63). -/
def lsrWord (v : Word) (amount : Nat) : Word := BitVec.ofNat 32 (v.toNat / 2 ^ amount)

/-- Arithmetic shift right: the floor of the signed quotient (40_shared_operations R63). -/
def asrWord (v : Word) (amount : Nat) : Word := BitVec.ofInt 32 (v.toInt / 2 ^ amount)

/-- Rotate right, the amount reduced modulo 32 first (40_shared_operations R65). -/
def rorWord (v : Word) (amount : Nat) : Word :=
  let a := amount % 32
  if a = 0 then v else lsrWord v a ||| lslWord v (32 - a)

/-- Rotate right with extend: `carry_in : value[31:1]` (40_shared_operations R64). -/
def rrxWord (v : Word) (carryIn : Bool) : Word := BitVec.ofBool carryIn ++ v.extractLsb' 1 31

/-- `Shift`: the shifted value only, the shifter's carry discarded (40_shared_operations R62). -/
def shift (v : Word) (srtype : SRType) (amount : Nat) (carryIn : Bool) : Word :=
  if amount = 0 then v else
    match srtype with
    | .lsl => lslWord v amount
    | .lsr => lsrWord v amount
    | .asr => asrWord v amount
    | .ror => rorWord v amount
    | .rrx => rrxWord v carryIn

/-- The copy of R0 to R14 that a register number names in a mode (10_state R14). -/
def bankedReg (m : Mode) (n : Fin 15) : PhysReg :=
  match m with
  | .user => .usr n
  | .system => .usr n
  | .fiq => if h : 8 ≤ n.val then .fiq ⟨n.val - 8, by omega⟩ else .usr n
  | .irq => if h : 13 ≤ n.val then .irq ⟨n.val - 13, by omega⟩ else .usr n
  | .supervisor => if h : 13 ≤ n.val then .svc ⟨n.val - 13, by omega⟩ else .usr n
  | .monitor => if h : 13 ≤ n.val then .mon ⟨n.val - 13, by omega⟩ else .usr n
  | .abort => if h : 13 ≤ n.val then .abt ⟨n.val - 13, by omega⟩ else .usr n
  | .undefined => if h : 13 ≤ n.val then .und ⟨n.val - 13, by omega⟩ else .usr n
  | .hyp => if n.val = 13 then .hypSp else .usr n

end Sys2Proof.Machine
end

