-- ==== Sys2Proof/Machine/Ops.lean ====
section
/-! DEFINITION. The named operations over memory, registers, the PC and PSTATE (20_memory R29 to R33,
40_shared_operations R60, R61, R69 to R72, 60_exceptions R90 to R92, R96, R97, R100). -/
namespace Sys2Proof.Machine

/-! Memory -/

/-- What an address that nothing has listed reads as: no value, the program is not defined there (20_memory R29;
entry 3). -/
def Memory.unlisted : Option Byte := none

/-- The byte at an address. -/
def Memory.read : Memory → Nat → Option Byte
  | [], _ => Memory.unlisted
  | (k, b) :: rest, a => if a = k then some b else Memory.read rest a

/-- Puts a byte at an address, keeping the canonical form. -/
def Memory.write : Memory → Nat → Byte → Memory
  | [], a, v => [(a, v)]
  | (k, b) :: rest, a, v =>
    if a < k then (a, v) :: (k, b) :: rest
    else if a = k then (a, v) :: rest
    else (k, b) :: Memory.write rest a v

/-- Strictly rising addresses from `lo` on, all inside the space of 2^32 bytes (20_memory R29). -/
def Memory.wfFrom : Nat → Memory → Bool
  | _, [] => true
  | lo, (k, _) :: rest => decide (lo ≤ k) && decide (k < 2 ^ 32) && Memory.wfFrom (k + 1) rest

/-- The canonical form of memory. An unlisted address has no value, so no entry can equal it. -/
def Memory.wf (m : Memory) : Bool := Memory.wfFrom 0 m

/-- The four bytes at an address as a little-endian word, if all are there (20_memory R33). -/
def Memory.readWord (m : Memory) (a : Nat) : Option Word :=
  match Memory.read m a, Memory.read m (a + 1), Memory.read m (a + 2), Memory.read m (a + 3) with
  | some b0, some b1, some b2, some b3 => some (wordOfBytes b0 b1 b2 b3)
  | _, _, _, _ => none

/-- Stores a word little-endian (20_memory R33); no instruction does (20_memory R28). -/
def Memory.writeWord (m : Memory) (a : Nat) (w : Word) : Memory :=
  Memory.write (Memory.write (Memory.write (Memory.write m a (byteOfWord w 0)) (a + 1) (byteOfWord w 1))
    (a + 2) (byteOfWord w 2)) (a + 3) (byteOfWord w 3)

/-- `MemRead(addr, 4)`, that is `launch.prog addr`: defined at word-aligned addresses only (20_memory R29). -/
def progWord (m : Memory) (addr : Word) : Option Word :=
  if addr.toNat % 4 = 0 then Memory.readWord m addr.toNat else none

/-! Modes -/

/-- `PSTATE.M` of a mode (60_exceptions R100). -/
def modeBits : Mode → BitVec 5
  | .user => 0b10000#5
  | .fiq => 0b10001#5
  | .irq => 0b10010#5
  | .supervisor => 0b10011#5
  | .monitor => 0b10110#5
  | .abort => 0b10111#5
  | .hyp => 0b11010#5
  | .undefined => 0b11011#5
  | .system => 0b11111#5

/-- The mode of an encoding; every other value is reserved (60_exceptions R100). -/
def modeOfBits (b : BitVec 5) : Option Mode :=
  match b.toNat with
  | 0b10000 => some .user
  | 0b10001 => some .fiq
  | 0b10010 => some .irq
  | 0b10011 => some .supervisor
  | 0b10110 => some .monitor
  | 0b10111 => some .abort
  | 0b11010 => some .hyp
  | 0b11011 => some .undefined
  | 0b11111 => some .system
  | _ => none

/-- Hyp mode exists only if EL2 is implemented, Monitor mode only if EL3 is and uses AArch32 (60_exceptions R100). -/
def modeImplemented : Mode → Bool
  | .hyp => Config.haveHyp
  | .monitor => Config.haveMonitor
  | _ => true

/-- The mode that saved mode bits name, if it is implemented (60_exceptions R97 (a)). -/
def implementedModeOfBits (b : BitVec 5) : Option Mode :=
  match modeOfBits b with
  | some m => if modeImplemented m then some m else none
  | none => none

/-- The current mode. -/
def State.mode (s : State) : Mode := s.pstate.m

/-- The SPSR of a mode that has one (10_state R22, 60_exceptions R100). -/
def SpsrFile.ofMode (f : SpsrFile) : Mode → Option Word
  | .user => none
  | .fiq => some f.fiq
  | .irq => some f.irq
  | .supervisor => some f.svc
  | .monitor => some f.mon
  | .abort => some f.abt
  | .hyp => some f.hyp
  | .undefined => some f.und
  | .system => none

/-- The CPSR, the AArch32 register view of PSTATE (10_state R21): J is zero, and IT, IL and T read as zero there
(entry 21). -/
def PState.cpsr (p : PState) : Word :=
  BitVec.ofBool p.n ++ BitVec.ofBool p.z ++ BitVec.ofBool p.c ++ BitVec.ofBool p.v ++ BitVec.ofBool p.q ++
    0b00#2 ++ 0b0#1 ++ BitVec.ofBool p.ssbs ++ BitVec.ofBool p.pan ++ BitVec.ofBool p.dit ++ 0b0#1 ++ p.ge ++
    0b000000#6 ++ BitVec.ofBool p.e ++ BitVec.ofBool p.a ++ BitVec.ofBool p.i ++ BitVec.ofBool p.f ++ 0b0#1 ++
    modeBits p.m

/-! Registers -/

/-- One physical register. -/
def RegFile.get (r : RegFile) : PhysReg → Word
  | .usr i => r.usr[i]
  | .fiq i => r.fiq[i]
  | .irq i => r.irq[i]
  | .svc i => r.svc[i]
  | .mon i => r.mon[i]
  | .abt i => r.abt[i]
  | .und i => r.und[i]
  | .hypSp => r.hypSp

/-- Replaces one physical register. -/
def RegFile.set (r : RegFile) (p : PhysReg) (v : Word) : RegFile :=
  match p with
  | .usr i => { r with usr := r.usr.set i v }
  | .fiq i => { r with fiq := r.fiq.set i v }
  | .irq i => { r with irq := r.irq.set i v }
  | .svc i => { r with svc := r.svc.set i v }
  | .mon i => { r with mon := r.mon.set i v }
  | .abt i => { r with abt := r.abt.set i v }
  | .und i => { r with und := r.und.set i v }
  | .hypSp => { r with hypSp := v }

/-- `R[n]` read: the copy banked for the mode, and `pc + 8` for register 15 (40_shared_operations R60). -/
def State.readReg (s : State) (n : RegNum) : Word :=
  if h : n.val < 15 then s.regs.get (bankedReg s.mode ⟨n.val, h⟩) else s.pc + 8#32

/-- `R[n] = value`: the whole register; the PC is never written through it (40_shared_operations R61). -/
def State.writeReg (s : State) (n : RegNum) (v : Word) : State :=
  if h : n.val < 15 then { s with regs := s.regs.set (bankedReg s.mode ⟨n.val, h⟩) v } else s

/-- The state with other condition flags (41_rsc_register R73). -/
def State.writeFlags (s : State) (nzcv : BitVec 4) : State :=
  { s with pstate := s.pstate.withFlags nzcv }

/-! The PC -/

/-- An address with its bit 0 cleared, `address[31:1] : '0'`. -/
def clearBit0 (a : Word) : Word := a.extractLsb' 1 31 ++ 0b0#1

/-- An address with other bits [1:0]. -/
def withLowBits (a : Word) (low : BitVec 2) : Word := a.extractLsb' 2 30 ++ low

/-- `pc <- pc + 4`, a fault where that overflows the address space (10_state R15, R16). -/
def State.advance (s : State) : Host.Outcome State Fault Refusal :=
  if s.pc.toNat + 4 < 2 ^ 32 then .next { s with pc := s.pc + 4#32 } else .fault .addressSpaceWrap

/-- `pc <- t` in the chosen instruction set (40_shared_operations R69, R70). -/
def State.branchTo (s : State) (target : Word) (thumb : Bool) : State :=
  { s with pc := target, pstate := { s.pstate with t := thumb } }

/-- `ALUWritePC` of an instruction executed in A32 state: the interworking branch. A target with bits [1:0] = 10 is
CONSTRAINED UNPREDICTABLE, a fault at the branch (40_shared_operations R70, 92 D7; entry 10). -/
def aluWritePC (address : Word) (s : State) : Host.Outcome State Fault Refusal :=
  if address.getLsbD 0 then .next (s.branchTo (clearBit0 address) true)
  else if address.getLsbD 1 then .fault .constrainedUnpredictableBranchToUnalignedA32
  else .next (s.branchTo address false)

/-! Exceptions -/

/-- `raise Undefined`: taking the Undefined Instruction exception, a terminal fault that records the pc, since the
entry is in no source (60_exceptions R90, R95, 92 D8; entry 11). -/
def raiseUndefined (cause : UndefinedCause) (s : State) : Fault := .undefinedInstruction s.pc cause

/-- Whether a return to the saved status is an illegal return event: the saved mode is none that is implemented, or
the configuration says so (60_exceptions R97, 92 D22; entry 7). -/
def illegalReturn (spsr : Word) (m : Mode) : Bool :=
  (implementedModeOfBits (spsr.extractLsb' 0 5)).isNone || Config.illegalReturn spsr m

/-- PSTATE after a return to the saved status `spsr`, the k-th draw supplying the free values (60_exceptions R96). -/
def PState.restored (p : PState) (spsr : Word) (k : Nat) : PState :=
  let illegal := illegalReturn spsr p.m
  let il := illegal || spsr.getLsbD 20
  let t := if il then Config.illegalStateKeepsT k && spsr.getLsbD 5 else spsr.getLsbD 5
  { n := spsr.getLsbD 31
    z := spsr.getLsbD 30
    c := spsr.getLsbD 29
    v := spsr.getLsbD 28
    q := spsr.getLsbD 27
    it := if t then spsr.extractLsb' 10 6 ++ spsr.extractLsb' 25 2 else 0#8
    ssbs := if Config.haveSSBS then (if illegal then Config.freeSSBS k else spsr.getLsbD 23) else p.ssbs
    pan := if Config.havePAN then spsr.getLsbD 22 else p.pan
    dit := if Config.haveDIT then spsr.getLsbD 21 else p.dit
    il := il
    ge := spsr.extractLsb' 16 4
    e := spsr.getLsbD 9
    a := spsr.getLsbD 8
    i := spsr.getLsbD 7
    f := spsr.getLsbD 6
    t := t
    m := if illegal then p.m else (modeOfBits (spsr.extractLsb' 0 5)).getD p.m }

/-- The address execution continues at, fitted to the restored state (60_exceptions R96). -/
def returnTarget (newPc : Word) (p : PState) (k : Nat) : Word :=
  if p.il then withLowBits newPc (Config.freePCBits k)
  else if p.t then clearBit0 newPc
  else withLowBits newPc 0b00#2

/-- `ExceptionReturn`: restores PSTATE from the saved status, clears the local exclusive monitor, sends a local event
and branches (40_shared_operations R72, 60_exceptions R96; entry 6). -/
def exceptionReturn (newPc spsr : Word) (s : State) : State :=
  let p := s.pstate.restored spsr s.freeCount
  { s with
    pstate := p
    pc := returnTarget newPc p s.freeCount
    exclusiveMonitor := false
    eventRegister := true
    freeCount := s.freeCount + 1 }

/-- `ALUExceptionReturn`: the mode checks, then the return (40_shared_operations R71, R72). User and System mode are
CONSTRAINED UNPREDICTABLE, a fault (92 D9; entry 9). -/
def aluExceptionReturn (address : Word) (s : State) : Host.Outcome State Fault Refusal :=
  match s.mode with
  | .hyp => .fault (raiseUndefined .instruction s)
  | .user => .fault .constrainedUnpredictableALUExceptionReturn
  | .system => .fault .constrainedUnpredictableALUExceptionReturn
  | .fiq => .next (exceptionReturn address s.spsr.fiq s)
  | .irq => .next (exceptionReturn address s.spsr.irq s)
  | .supervisor => .next (exceptionReturn address s.spsr.svc s)
  | .monitor => .next (exceptionReturn address s.spsr.mon s)
  | .abort => .next (exceptionReturn address s.spsr.abt s)
  | .undefined => .next (exceptionReturn address s.spsr.und s)

end Sys2Proof.Machine
end

