-- ==== Sys2Proof/Machine/ReverseSubtract.lean ====
section
/-! DEFINITION. The instruction family (41_rsc_register): the operation of all four encodings (R73) and the meaning of
each (R74 to R77). -/
namespace Sys2Proof.Machine

/-- `NOT(R[n])`, the shifted `R[m]` and the carry flag through `AddWithCarry`: the result and its flags
(41_rsc_register R73). All reads are of the state before the instruction (00_scope R10). -/
def rscResult (rn rm : RegNum) (sh : SRType × Nat) (s : State) : Word × BitVec 4 :=
  addWithCarry (~~~ s.readReg rn) (shift (s.readReg rm) sh.1 sh.2 s.pstate.c) s.pstate.c

/-- The writes of an instruction whose condition passed (41_rsc_register R73). -/
def rscWriteBack (setflags : Bool) (rd : RegNum) (r : Word × BitVec 4) (s : State) :
    Host.Outcome State Fault Refusal :=
  if rd.val = 15 then
    if setflags then aluExceptionReturn r.1 s else aluWritePC r.1 s
  else if setflags then ((s.writeReg rd r.1).writeFlags r.2).advance
  else (s.writeReg rd r.1).advance

/-- The operation of all four encodings; a failed condition only advances the PC (41_rsc_register R73, R78). -/
def rscOperation (setflags : Bool) (sh : SRType × Nat) (cond : Cond) (rd rn rm : RegNum) (s : State) :
    Host.Outcome State Fault Refusal :=
  if conditionPassed cond s.pstate then rscWriteBack setflags rd (rscResult rn rm sh s) s else s.advance

/-- `RSC_r_A1_RRX` (41_rsc_register R74). -/
def execRscRrx (cond : Cond) (rd rn rm : RegNum) (s : State) : Host.Outcome State Fault Refusal :=
  rscOperation false (.rrx, 1) cond rd rn rm s

/-- `RSC_r_A1` (41_rsc_register R75). -/
def execRsc (cond : Cond) (rd rn rm : RegNum) (stype : SType) (imm5 : BitVec 5) (s : State) :
    Host.Outcome State Fault Refusal :=
  rscOperation false (decodeImmShift stype imm5) cond rd rn rm s

/-- `RSCS_r_A1_RRX` (41_rsc_register R76). -/
def execRscsRrx (cond : Cond) (rd rn rm : RegNum) (s : State) : Host.Outcome State Fault Refusal :=
  rscOperation true (.rrx, 1) cond rd rn rm s

/-- `RSCS_r_A1` (41_rsc_register R77). -/
def execRscs (cond : Cond) (rd rn rm : RegNum) (stype : SType) (imm5 : BitVec 5) (s : State) :
    Host.Outcome State Fault Refusal :=
  rscOperation true (decodeImmShift stype imm5) cond rd rn rm s

end Sys2Proof.Machine
end

