-- ==== Sys2Proof/Machine/Dispatch.lean ====
section
/-! DEFINITION. The meaning of each instruction, one arm per constructor. -/
namespace Sys2Proof.Machine

def exec (i : Instr) (s : State) : Host.Outcome State Fault Refusal :=
  match i with
  | .rscRrx cond rd rn rm => Sys2Proof.Machine.execRscRrx cond rd rn rm s
  | .rsc cond rd rn rm stype imm5 => Sys2Proof.Machine.execRsc cond rd rn rm stype imm5 s
  | .rscsRrx cond rd rn rm => Sys2Proof.Machine.execRscsRrx cond rd rn rm s
  | .rscs cond rd rn rm stype imm5 => Sys2Proof.Machine.execRscs cond rd rn rm stype imm5 s

end Sys2Proof.Machine
end

