-- ==== Sys2Proof/Machine/Fetch.lean ====
section
/-! DEFINITION. The end-of-run test and instruction fetch (20_memory R30 to R33, 70_reset_and_hazards R111,
60_exceptions R92, R97), and placing one instruction where the fetch finds it. -/
namespace Sys2Proof.Machine

/-- The run has ended: the pc is the launch's end address, a multiple of 4, in A32 state (70_reset_and_hazards R111;
entry 4). -/
def runEnded (s : State) : Bool := decide (s.endAddr = some s.pc ∧ s.pc.toNat % 4 = 0) && !s.pstate.t

/-- The instruction the PE executes next, or why it has none. The order of the checks is entry 12. -/
def fetchInstr (s : State) : Host.Outcome Instr Fault Refusal :=
  if s.pstate.il then .fault (raiseUndefined .illegalState s)
  else if s.pstate.t then .refused .leftA32State
  else if s.pc.toNat % 4 ≠ 0 then .fault .pcMisalignedAtFetch
  else
    match progWord s.mem s.pc with
    | none => .fault .noProgramWord
    | some w =>
      match decodeWord w with
      | .ok i => .next i
      | .error _ => .refused (.notRSCRegister w)

/-- The word `w`, its bits above `nbits` zero, placed at the (aligned) pc of a state that is made ready to fetch it:
A32 state, no Illegal Execution state, the run not ended there (entry 20). -/
def placeInstr (s : State) (nbits w : Nat) : State :=
  let pc := withLowBits s.pc 0b00#2
  { s with
    pc := pc
    pstate := { s.pstate with t := false, il := false }
    mem := Memory.writeWord s.mem pc.toNat (BitVec.ofNat 32 (w % 2 ^ nbits))
    endAddr := if s.endAddr = some pc then none else s.endAddr }

end Sys2Proof.Machine
end

