-- ==== Sys2Proof/Machine/Step.lean ====
section
/-! DEFINITION. One step of the PE: the end-of-run test, fetch and decode, execute (60_exceptions R103). -/
namespace Sys2Proof.Machine

/-- An ended run stays where it is (70_reset_and_hazards R111; entry 4); otherwise the next instruction is fetched,
decoded and executed. -/
def step (s : State) : Host.Outcome State Fault Refusal :=
  if runEnded s then .next s
  else
    match fetchInstr s with
    | .next i => exec i s
    | .fault r => .fault r
    | .refused r => .refused r

/-- The state with the table word `w` stored where `step` fetches its next instruction (entry 20). -/
def State.withFetchWord (s : State) (nbits w : Nat) : State := placeInstr s nbits w

end Sys2Proof.Machine
end

