-- ==== Sys2Proof/Machine/Assembly.lean ====
section
/-! DEFINITION. The assembler syntax of the four templates (30_encoding R52 to R56; entry 27): what a line of assembly
names, the instruction it stands for, the line of an instruction, and its text. -/
namespace Sys2Proof.Machine

/-- The shift part of a template: omitted, `<shift> #<amount>`, or `RRX` (30_encoding R52, R55). -/
inductive AsmShift where
  | omitted
  | amount (stype : SType) (value : Nat)
  | rrx
  deriving DecidableEq, Repr

/-- The qualifier `<q>` (30_encoding R53). -/
inductive Qualifier where
  | narrow
  | wide
  deriving DecidableEq, Repr

/-- One line of assembly: `RSC{S}{<c>}{<q>} {<Rd>,} <Rn>, <Rm> {, <shift>}` (30_encoding R52). -/
structure AsmLine where
  /-- The mnemonic is RSCS. -/
  sets : Bool
  cond : Option Cond
  qual : Option Qualifier
  rd : Option RegNum
  rn : RegNum
  rm : RegNum
  shift : AsmShift
  deriving DecidableEq, Repr

/-- `<amount>` is in 1 to 31 for LSL and ROR and in 1 to 32 for LSR and ASR (30_encoding R55). -/
def amountInRange : SType → Nat → Bool
  | .lsl, a => decide (1 ≤ a ∧ a ≤ 31)
  | .lsr, a => decide (1 ≤ a ∧ a ≤ 32)
  | .asr, a => decide (1 ≤ a ∧ a ≤ 32)
  | .ror, a => decide (1 ≤ a ∧ a ≤ 31)

/-- `stype` and `imm5` of a shift that is not RRX: `imm5 = <amount> mod 32`, an omitted shift being LSL by 0
(30_encoding R55). -/
def shiftFields : AsmShift → Option (SType × BitVec 5)
  | .omitted => some (.lsl, 0#5)
  | .amount st a => if amountInRange st a then some (st, BitVec.ofNat 5 (a % 32)) else none
  | .rrx => none

/-- The instruction of a line. `.N` is an error in A32, an omitted condition is AL and an omitted `<Rd>` is `<Rn>`
(30_encoding R53, R54). -/
def assemble (l : AsmLine) : Option Instr :=
  let cond := l.cond.getD .al
  let rd := l.rd.getD l.rn
  if l.qual = some .narrow then none
  else if l.shift = .rrx then
    some (if l.sets then .rscsRrx cond rd l.rn l.rm else .rscRrx cond rd l.rn l.rm)
  else
    match shiftFields l.shift with
    | some (st, imm5) => some (if l.sets then .rscs cond rd l.rn l.rm st imm5 else .rsc cond rd l.rn l.rm st imm5)
    | none => none

/-- The shift part that stands for `stype` and `imm5` (30_encoding R47, assembler form). -/
def asmShiftOf (st : SType) (imm5 : BitVec 5) : AsmShift :=
  if imm5 = 0#5 then
    match st with
    | .lsl => .omitted
    | .lsr => .amount .lsr 32
    | .asr => .amount .asr 32
    | .ror => .rrx
  else .amount st imm5.toNat

/-- One spelling of an instruction. R56 gives no preference, so that `<Rd>` is always printed, AL left out and `<q>` never
printed is the model's: DESIGN CHOICE (30_encoding R56; entry 27). -/
def disassemble (i : Instr) : AsmLine where
  sets := i.setflags
  cond := if i.cond = .al then none else some i.cond
  qual := none
  rd := some i.rd
  rn := i.rn
  rm := i.rm
  shift :=
    match i with
    | .rscRrx _ _ _ _ => .rrx
    | .rsc _ _ _ _ st imm5 => asmShiftOf st imm5
    | .rscsRrx _ _ _ _ => .rrx
    | .rscs _ _ _ _ st imm5 => asmShiftOf st imm5

/-- `<c>` (40_shared_operations R59). Of the two spellings that R59 gives, CS or HS and CC or LO, the model prints CS and
CC: DESIGN CHOICE (entry 27). -/
def condText : Cond → String
  | .eq => "EQ" | .ne => "NE" | .cs => "CS" | .cc => "CC" | .mi => "MI" | .pl => "PL" | .vs => "VS" | .vc => "VC"
  | .hi => "HI" | .ls => "LS" | .ge => "GE" | .lt => "LT" | .gt => "GT" | .le => "LE" | .al => "AL"

/-- A register's name, R13, R14 and R15 being SP, LR and PC (10_state R14). -/
def regText (r : RegNum) : String :=
  if r.val = 13 then "SP" else if r.val = 14 then "LR" else if r.val = 15 then "PC" else "R" ++ Nat.repr r.val

/-- `<shift>` (30_encoding R55). -/
def stypeText : SType → String
  | .lsl => "LSL" | .lsr => "LSR" | .asr => "ASR" | .ror => "ROR"

/-- The shift part's text. -/
def shiftText : AsmShift → String
  | .omitted => ""
  | .amount st a => ", " ++ stypeText st ++ " #" ++ Nat.repr a
  | .rrx => ", RRX"

/-- A line's text by the templates of 30_encoding R52: the S before the condition, then the qualifier. -/
def AsmLine.text (l : AsmLine) : String :=
  "RSC" ++ (if l.sets then "S" else "") ++ (l.cond.map condText).getD "" ++
    (match l.qual with | none => "" | some .narrow => ".N" | some .wide => ".W") ++ " " ++
    (match l.rd with | none => "" | some r => regText r ++ ", ") ++ regText l.rn ++ ", " ++ regText l.rm ++
    shiftText l.shift

end Sys2Proof.Machine
end

