-- ==== Sys2Proof/Safety.lean ====
section
/-! DEFINITION. The terms claims are stated in: the launch premises (70_reset_and_hazards R112), the integer reading
of the result and the flags (41_rsc_register R83, R84), and the invariant every step keeps. The premises
NoFaultRecorded and NoRefusalRecorded hold of every state (entry 5); NoAsyncException and FetchPermitted are built into
the machine (entry 19). -/
namespace Sys2Proof.Machine

/-- `InA32State` (70 R112). -/
abbrev InA32State (s : State) : Prop := s.pstate.t = false

/-- `PCAligned` (70 R112). -/
abbrev PCAligned (s : State) : Prop := s.pc.toNat % 4 = 0

/-- `ProgramDefinedAt pc` (70 R112). -/
abbrev ProgramDefinedAt (s : State) (addr : Word) : Prop := progWord s.mem addr ≠ none

/-- The end address of the launch is a multiple of 4 (70 R111). -/
abbrev EndAligned (s : State) : Prop := ∀ a : Word, s.endAddr = some a → a.toNat % 4 = 0

/-- `ModeIs m` (70 R112). -/
abbrev ModeIs (s : State) (m : Mode) : Prop := s.mode = m

/-- The sequential successor stays inside the address space (10_state R16). -/
abbrev CanAdvance (s : State) : Prop := s.pc.toNat + 4 < 2 ^ 32

/-- The modes from which RSCS with Rd = PC is an exception return: those with an SPSR but for Hyp (60_exceptions
R100, last column). -/
abbrev ReturnsFrom (m : Mode) : Prop := m ≠ .user ∧ m ≠ .system ∧ m ≠ .hyp

/-- `s - a - (1 - C)` exactly, on the unsigned readings (41_rsc_register R83). -/
def exactDiff (a s : Word) (c : Bool) : Int := (s.toNat : Int) - (a.toNat : Int) - (1 - (c.toNat : Int))

/-- `s - a - (1 - C)` exactly, on the signed readings (41_rsc_register R84). -/
def exactSignedDiff (a s : Word) (c : Bool) : Int := s.toInt - a.toInt - (1 - (c.toNat : Int))

/-- The result as integer arithmetic modulo 2^32 (41_rsc_register R83). -/
def reverseDiff (a s : Word) (c : Bool) : Word := BitVec.ofInt 32 (exactDiff a s c)

/-- The condition flags of the RSCS encodings as 41_rsc_register R84 gives them, in `p`. -/
def PState.withDiffFlags (p : PState) (a s : Word) : PState :=
  { p with
    n := (reverseDiff a s p.c).msb
    z := decide (reverseDiff a s p.c = 0#32)
    c := decide (a.toNat + (1 - p.c.toNat) ≤ s.toNat)
    v := decide (exactSignedDiff a s p.c < -2 ^ 31 ∨ 2 ^ 31 - 1 < exactSignedDiff a s p.c) }

/-- What the rules say of every state of a run: memory is canonical, the mode exists, IT is zero in A32 state, the pc
is a multiple of 4 in A32 state and even in T32 state but after a return that set IL, the end address is a multiple of
4, and the PSTATE bits of features that are not implemented stay zero (10_state R20, R21, 20_memory R29, R32,
60_exceptions R96, R100, 70_reset_and_hazards R111, 92 D11). -/
structure Inv (s : State) : Prop where
  memCanonical : Memory.wf s.mem = true
  modeExists : modeImplemented s.mode = true
  itZeroInA32 : s.pstate.t = false → s.pstate.it = 0#8
  pcAligned : s.pstate.il = false → s.pstate.t = false → PCAligned s
  pcEven : s.pstate.il = false → s.pc.toNat % 2 = 0
  endAligned : EndAligned s
  ditAbsent : Config.haveDIT = false → s.pstate.dit = false
  ssbsAbsent : Config.haveSSBS = false → s.pstate.ssbs = false
  panAbsent : Config.havePAN = false → s.pstate.pan = false

/-- Two states an instruction cannot tell apart but for the mode: the same register view, pc, PSTATE but for M, and
free values (60_exceptions R101). -/
structure SameButMode (s₁ s₂ : State) : Prop where
  view : ∀ r : RegNum, s₁.readReg r = s₂.readReg r
  pc : s₁.pc = s₂.pc
  pstate : ∀ m : Mode, { s₁.pstate with m := m } = { s₂.pstate with m := m }
  freeCount : s₁.freeCount = s₂.freeCount

/-- Two outcomes agree up to the mode. -/
def OutcomesAgree : Host.Outcome State Fault Refusal → Host.Outcome State Fault Refusal → Prop
  | .next t₁, .next t₂ => SameButMode t₁ t₂
  | .fault r₁, .fault r₂ => r₁ = r₂
  | .refused r₁, .refused r₂ => r₁ = r₂
  | _, _ => False

/-- The shift type and amount a line of assembly names (30_encoding R47, R55). -/
def shiftOfLine : AsmShift → SRType × Nat
  | .omitted => (.lsl, 0)
  | .amount .lsl a => (.lsl, a)
  | .amount .lsr a => (.lsr, a)
  | .amount .asr a => (.asr, a)
  | .amount .ror a => (.ror, a)
  | .rrx => (.rrx, 1)

/-- The promise of data-independent timing covers this instruction in this state (70_reset_and_hazards R109); the
model keeps no clock, so nothing else is said of it (entry 22). -/
def ditCovers (i : Instr) (s : State) : Bool :=
  s.pstate.dit && decide (i.rd ≠ 15 ∧ i.rn ≠ 15 ∧ i.rm ≠ 15)

end Sys2Proof.Machine
end

