-- ==== Sys2Proof/Certificates/Slice0/Obligations.lean ====
section
/-! DEFINITION. The statements for the provers. -/
open Sys2Proof Sys2Proof.Machine

/-! Encoding and decoding -/

/-- Words written out in 95_test_vectors section 2 decode to the instructions it spells, and the words it lists as
outside the class are rejected by name. -/
def Obligations.SpecWordsDecode : Prop :=
  decodeWord 0xE0E10002#32 = .ok (.rsc .al 0 1 2 .lsl 0#5) ∧
  decodeWord 0xE0F31061#32 = .ok (.rscsRrx .al 1 3 1) ∧
  decodeWord 0xE0E10062#32 = .ok (.rscRrx .al 0 1 2) ∧
  decodeWord 0xB0E983AA#32 = .ok (.rsc .lt 8 9 10 .lsr 7#5) ∧
  decodeWord 0xE0FBC46C#32 = .ok (.rscs .al 12 11 12 .ror 8#5) ∧
  decodeWord 0xE0E100E2#32 = .ok (.rsc .al 0 1 2 .ror 1#5) ∧
  decodeWord 0xF0E10002#32 = .error (.condition1111 0xF0E10002#32) ∧
  decodeWord 0xE0E10012#32 = .error (.notClassA1 0xE0E10012#32) ∧
  decodeWord 0xE0A10002#32 = .error (.notClassA1 0xE0A10002#32)

/-- Decoding the bytes of a well-formed instruction gives it back, with the bytes after it (30_encoding R38, R42,
20_memory R33): no bit of an encoding is dropped. -/
def Obligations.EncodeThenDecode : Prop :=
  ∀ (i : Instr) (rest : List Byte), i.wellFormed = true → decode (encodeBytes i ++ rest) = .ok (i, rest)

/-- Every word that decodes is the word of the instruction read, which is well formed: each word has one meaning
(30_encoding R43). -/
def Obligations.DecodeThenEncode : Prop :=
  ∀ (w : Word) (i : Instr), decodeWord w = .ok i → i.wellFormed = true ∧ encode i = w

/-- A word is an instruction exactly when it has the fixed bits of class A1 and `cond` is not `1111` (30_encoding R39
to R41, R50). -/
def Obligations.ClassA1IsWhatDecodes : Prop :=
  ∀ w : Word, (∃ i, decodeWord w = .ok i) ↔
    (w &&& 0x0FE00010#32 = 0x00E00000#32 ∧ w.extractLsb' 28 4 ≠ 0b1111#4)

/-- The four encodings by match, mask and further condition, every row also needing `cond != 1111` (30_encoding
R42). -/
def Obligations.EncodingsByMatchAndMask : Prop :=
  ∀ w : Word,
    ((∃ c d n m, decodeWord w = .ok (.rscRrx c d n m)) ↔
      (w.extractLsb' 28 4 ≠ 0b1111#4 ∧ w &&& 0x0FF00FF0#32 = 0x00E00060#32)) ∧
    ((∃ c d n m st imm5, decodeWord w = .ok (.rsc c d n m st imm5)) ↔
      (w.extractLsb' 28 4 ≠ 0b1111#4 ∧ w &&& 0x0FF00010#32 = 0x00E00000#32 ∧
        w &&& 0x00000FE0#32 ≠ 0x00000060#32)) ∧
    ((∃ c d n m, decodeWord w = .ok (.rscsRrx c d n m)) ↔
      (w.extractLsb' 28 4 ≠ 0b1111#4 ∧ w &&& 0x0FF00FF0#32 = 0x00F00060#32)) ∧
    ((∃ c d n m st imm5, decodeWord w = .ok (.rscs c d n m st imm5)) ↔
      (w.extractLsb' 28 4 ≠ 0b1111#4 ∧ w &&& 0x0FF00010#32 = 0x00F00000#32 ∧
        w &&& 0x00000FE0#32 ≠ 0x00000060#32))

/-- The decode of class A1 raises nothing, and reads `d`, `n`, `m`, `setflags` and `(shift_t, shift_n)` from the
fields, in the RRX encodings too (30_encoding R46), and the condition from `cond`. -/
def Obligations.DecodeReadsTheFields : Prop :=
  ∀ w : Word, w &&& 0x0FE00010#32 = 0x00E00000#32 → w.extractLsb' 28 4 ≠ 0b1111#4 →
    ∃ i, decodeWord w = .ok i ∧
      i.rd.val = (w.extractLsb' 12 4).toNat ∧ i.rn.val = (w.extractLsb' 16 4).toNat ∧
      i.rm.val = (w.extractLsb' 0 4).toNat ∧ (i.setflags = true ↔ w.getLsbD 20 = true) ∧
      condBits i.cond = w.extractLsb' 28 4 ∧
      immShift i = decodeImmShift (stypeOfBits (w.extractLsb' 5 2)) (w.extractLsb' 7 5)

/-- The table of `DecodeImmShift`, with the assembler form of each line (30_encoding R47). -/
def Obligations.DecodeImmShiftTable : Prop :=
  (decodeImmShift .lsl 0#5 = (.lsl, 0) ∧ asmShiftOf .lsl 0#5 = .omitted) ∧
  (decodeImmShift .lsr 0#5 = (.lsr, 32) ∧ asmShiftOf .lsr 0#5 = .amount .lsr 32) ∧
  (decodeImmShift .asr 0#5 = (.asr, 32) ∧ asmShiftOf .asr 0#5 = .amount .asr 32) ∧
  (decodeImmShift .ror 0#5 = (.rrx, 1) ∧ asmShiftOf .ror 0#5 = .rrx) ∧
  (∀ imm5 : BitVec 5, imm5 ≠ 0#5 →
    decodeImmShift .lsl imm5 = (.lsl, imm5.toNat) ∧ decodeImmShift .lsr imm5 = (.lsr, imm5.toNat) ∧
    decodeImmShift .asr imm5 = (.asr, imm5.toNat) ∧ decodeImmShift .ror imm5 = (.ror, imm5.toNat) ∧
    ∀ st : SType, asmShiftOf st imm5 = .amount st imm5.toNat) ∧
  stypeOfBits 0b00#2 = .lsl ∧ stypeOfBits 0b01#2 = .lsr ∧ stypeOfBits 0b10#2 = .asr ∧ stypeOfBits 0b11#2 = .ror

/-- The pairs that reach `Shift` from a decoded word: LSL by 0 to 31, LSR and ASR by 1 to 32, ROR by 1 to 31, RRX by 1
(40_shared_operations section 4, Shift). -/
def Obligations.DecodedShiftsInRange : Prop :=
  ∀ (w : Word) (i : Instr), decodeWord w = .ok i →
    match immShift i with
    | (.lsl, a) => a ≤ 31
    | (.lsr, a) => 1 ≤ a ∧ a ≤ 32
    | (.asr, a) => 1 ≤ a ∧ a ≤ 32
    | (.ror, a) => 1 ≤ a ∧ a ≤ 31
    | (.rrx, a) => a = 1

/-! Shifts, the addition and the conditions -/

/-- LSL, LSR and ASR bit by bit, their values at 32, and which of them the decode calls with 32
(40_shared_operations R63). -/
def Obligations.ShiftsBitByBit : Prop :=
  (∀ (v : Word) (a : Nat) (c : Bool), 1 ≤ a →
    (∀ i, i < 32 →
      (shift v .lsl a c).getLsbD i = (if a ≤ i then v.getLsbD (i - a) else false) ∧
      (shift v .lsr a c).getLsbD i = (if i + a ≤ 31 then v.getLsbD (i + a) else false) ∧
      (shift v .asr a c).getLsbD i = (if i + a ≤ 31 then v.getLsbD (i + a) else v.getLsbD 31)) ∧
    (shift v .lsl a c).toNat = v.toNat * 2 ^ a % 2 ^ 32 ∧
    (shift v .lsr a c).toNat = v.toNat / 2 ^ a ∧
    (shift v .asr a c).toInt = v.toInt / 2 ^ a ∧
    shift v .lsr 32 c = 0x00000000#32 ∧
    shift v .asr 32 c = (if v.getLsbD 31 then 0xFFFFFFFF#32 else 0x00000000#32)) ∧
  (∀ imm5 : BitVec 5, (decodeImmShift .lsl imm5).2 < 32 ∧ ((decodeImmShift .lsr imm5).2 = 32 ↔ imm5 = 0b00000#5) ∧
    ((decodeImmShift .asr imm5).2 = 32 ↔ imm5 = 0b00000#5)) ∧
  shift 0x12345678#32 .lsl 4 false = 0x23456780#32 ∧ shift 0x80000001#32 .lsr 1 false = 0x40000000#32 ∧
  shift 0xFFFFFFF0#32 .asr 4 false = 0xFFFFFFFF#32

/-- ROR bit by bit, as the two shifts joined, its amount reduced modulo 32 (40_shared_operations R65), RRX bit by bit
(40_shared_operations section 4, RRX), and the examples of both. -/
def Obligations.RotatesBitByBit : Prop :=
  (∀ (v : Word) (c : Bool) (i : Nat), i < 32 →
    (shift v .rrx 1 c).getLsbD i = (if i = 31 then c else v.getLsbD (i + 1))) ∧
  (∀ (v : Word) (c : Bool) (a : Nat), 1 ≤ a → a ≤ 31 →
    (∀ i, i < 32 → (shift v .ror a c).getLsbD i = v.getLsbD ((i + a) % 32)) ∧
    shift v .ror a c = shift v .lsr a c ||| shift v .lsl (32 - a) c) ∧
  (∀ (v : Word) (c : Bool) (a : Nat), shift v .ror a c = shift v .ror (a % 32) c) ∧
  shift 1#32 .rrx 1 true = 0x80000000#32 ∧ shift 1#32 .rrx 1 false = 0x00000000#32 ∧
  shift 6#32 .rrx 1 true = 0x80000003#32 ∧ shift 0x12345678#32 .ror 8 false = 0x78123456#32 ∧
  shift 0x80000001#32 .ror 31 false = 0x00000003#32

/-- The condition is the `cond` field; the table of its fifteen values and when each passes, on the flags before the
instruction; and an instruction whose condition fails does nothing but advance the PC (40_shared_operations R59). -/
def Obligations.ConditionCodeTable : Prop :=
  (∀ (w : Word) (i : Instr), decodeWord w = .ok i → condBits i.cond = w.extractLsb' 28 4) ∧
  (∀ (i : Instr) (s : State), conditionPassed i.cond s.pstate = false → exec i s = s.advance) ∧
  ∀ p : PState,
    (condBits .eq = 0b0000#4 ∧ (conditionPassed .eq p = true ↔ p.z = true)) ∧
    (condBits .ne = 0b0001#4 ∧ (conditionPassed .ne p = true ↔ p.z = false)) ∧
    (condBits .cs = 0b0010#4 ∧ (conditionPassed .cs p = true ↔ p.c = true)) ∧
    (condBits .cc = 0b0011#4 ∧ (conditionPassed .cc p = true ↔ p.c = false)) ∧
    (condBits .mi = 0b0100#4 ∧ (conditionPassed .mi p = true ↔ p.n = true)) ∧
    (condBits .pl = 0b0101#4 ∧ (conditionPassed .pl p = true ↔ p.n = false)) ∧
    (condBits .vs = 0b0110#4 ∧ (conditionPassed .vs p = true ↔ p.v = true)) ∧
    (condBits .vc = 0b0111#4 ∧ (conditionPassed .vc p = true ↔ p.v = false)) ∧
    (condBits .hi = 0b1000#4 ∧ (conditionPassed .hi p = true ↔ (p.c = true ∧ p.z = false))) ∧
    (condBits .ls = 0b1001#4 ∧ (conditionPassed .ls p = true ↔ (p.c = false ∨ p.z = true))) ∧
    (condBits .ge = 0b1010#4 ∧ (conditionPassed .ge p = true ↔ p.n = p.v)) ∧
    (condBits .lt = 0b1011#4 ∧ (conditionPassed .lt p = true ↔ p.n ≠ p.v)) ∧
    (condBits .gt = 0b1100#4 ∧ (conditionPassed .gt p = true ↔ (p.z = false ∧ p.n = p.v))) ∧
    (condBits .le = 0b1101#4 ∧ (conditionPassed .le p = true ↔ (p.z = true ∨ p.n ≠ p.v))) ∧
    (condBits .al = 0b1110#4 ∧ conditionPassed .al p = true)

/-- `AddWithCarry(NOT(a), s, c)` as integer arithmetic: the wrapped difference, C the absence of a borrow, V a signed
difference out of range, N and Z of the result (40_shared_operations section 5, laws). -/
def Obligations.AddWithCarryIsReverseSubtraction : Prop :=
  ∀ (a s : Word) (c : Bool),
    let r := addWithCarry (~~~ a) s c
    r.1 = reverseDiff a s c ∧
    (r.2.getLsbD 1 = true ↔ 0 ≤ exactDiff a s c) ∧
    (r.2.getLsbD 1 = false ↔ (s.toNat : Int) < a.toNat + (1 - (c.toNat : Int))) ∧
    (r.2.getLsbD 0 = true ↔ (exactSignedDiff a s c < -2 ^ 31 ∨ 2 ^ 31 - 1 < exactSignedDiff a s c)) ∧
    r.2.getLsbD 3 = r.1.getLsbD 31 ∧
    (r.2.getLsbD 2 = true ↔ r.1 = 0#32)

/-! Registers -/

/-- A register read: register 15 reads the instruction's address plus 8 modulo 2^32, the others the copy of the current
mode (40_shared_operations R60). -/
def Obligations.RegisterReads : Prop :=
  ∀ (s : State) (n : RegNum),
    (n.val = 15 → (s.readReg n).toNat = (s.pc.toNat + 8) % 2 ^ 32) ∧
    (∀ h : n.val < 15, s.readReg n = s.regs.get (bankedReg s.mode ⟨n.val, h⟩))

/-- A register write replaces the whole register and no other register of the mode, the PC among them
(40_shared_operations section 3, register write; 10_state section 1). -/
def Obligations.RegisterWriteThenRead : Prop :=
  ∀ (s : State) (n n' : RegNum) (v : Word), n.val ≠ 15 →
    (s.writeReg n v).readReg n' = if n' = n then v else s.readReg n'

/-- Banking: FIQ has its own R8 to R14, Hyp its own R13, Supervisor, Abort, Undefined, IRQ and Monitor their own R13
and R14, and every other register number names the User copy (10_state section 1). Two modes share a copy exactly
when neither has its own. -/
def Obligations.BankedCopiesByMode : Prop :=
  let own : Mode → Fin 15 → Bool := fun m n =>
    match m with
    | .user | .system => false
    | .fiq => decide (8 ≤ n.val)
    | .hyp => decide (n.val = 13)
    | .irq | .supervisor | .monitor | .abort | .undefined => decide (13 ≤ n.val)
  ∀ (m₁ m₂ : Mode) (n₁ n₂ : Fin 15),
    bankedReg m₁ n₁ = bankedReg m₂ n₂ ↔
      (n₁ = n₂ ∧ (m₁ = m₂ ∨ (own m₁ n₁ = false ∧ own m₂ n₂ = false)))

/-- The CPSR view of PSTATE, bit by bit, with J, IT, IL and T reading as zero, and that a return to a saved CPSR
restores every field it shows: the mode on a legal return, SSBS on a legal return where it is implemented, PAN and DIT
where they are implemented (10_state section 4, the rest of PSTATE; 60_exceptions section 5; entries 7, 8, 14, 21). -/
def Obligations.CpsrLayout : Prop :=
  ∀ p q : PState, ∀ k : Nat,
    (p.cpsr.getLsbD 31 = p.n ∧ p.cpsr.getLsbD 30 = p.z ∧ p.cpsr.getLsbD 29 = p.c ∧ p.cpsr.getLsbD 28 = p.v ∧
      p.cpsr.getLsbD 27 = p.q ∧ p.cpsr.extractLsb' 24 3 = 0#3 ∧ p.cpsr.getLsbD 23 = p.ssbs ∧
      p.cpsr.getLsbD 22 = p.pan ∧ p.cpsr.getLsbD 21 = p.dit ∧ p.cpsr.getLsbD 20 = false ∧
      p.cpsr.extractLsb' 16 4 = p.ge ∧ p.cpsr.extractLsb' 10 6 = 0#6 ∧ p.cpsr.getLsbD 9 = p.e ∧
      p.cpsr.getLsbD 8 = p.a ∧ p.cpsr.getLsbD 7 = p.i ∧ p.cpsr.getLsbD 6 = p.f ∧ p.cpsr.getLsbD 5 = false ∧
      p.cpsr.extractLsb' 0 5 = modeBits p.m) ∧
    ((q.restored p.cpsr k).n = p.n ∧ (q.restored p.cpsr k).z = p.z ∧ (q.restored p.cpsr k).c = p.c ∧
      (q.restored p.cpsr k).v = p.v ∧ (q.restored p.cpsr k).q = p.q ∧ (q.restored p.cpsr k).ge = p.ge ∧
      (q.restored p.cpsr k).e = p.e ∧ (q.restored p.cpsr k).a = p.a ∧ (q.restored p.cpsr k).i = p.i ∧
      (q.restored p.cpsr k).f = p.f ∧ (q.restored p.cpsr k).t = false ∧ (q.restored p.cpsr k).it = 0#8 ∧
      (q.restored p.cpsr k).il = illegalReturn p.cpsr q.m ∧
      (q.restored p.cpsr k).m = (if illegalReturn p.cpsr q.m then q.m else p.m) ∧
      (q.restored p.cpsr k).ssbs =
        (if Config.haveSSBS then (if illegalReturn p.cpsr q.m then Config.freeSSBS k else p.ssbs) else q.ssbs) ∧
      (q.restored p.cpsr k).pan = (if Config.havePAN then p.pan else q.pan) ∧
      (q.restored p.cpsr k).dit = (if Config.haveDIT then p.dit else q.dit))

/-! The four encodings -/

/-- The operation of all four encodings, statement by statement (41_rsc_register R73). -/
def Obligations.OperationOfAllEncodings : Prop :=
  ∀ (i : Instr) (s : State),
    exec i s =
      if conditionPassed i.cond s.pstate = false then s.advance
      else
        let shifted := shift (s.readReg i.rm) (immShift i).1 (immShift i).2 s.pstate.c
        let r := addWithCarry (~~~ s.readReg i.rn) shifted s.pstate.c
        if i.rd.val ≠ 15 then
          if i.setflags then ((s.writeReg i.rd r.1).writeFlags r.2).advance else (s.writeReg i.rd r.1).advance
        else if i.setflags = false then aluWritePC r.1 s
        else aluExceptionReturn r.1 s

/-- RSC_r_A1_RRX with Rd other than the PC completes: Rd is `(C * 2^31 + floor(x[m] / 2)) - x[n] - (1 - C)` modulo
2^32, no flag is written, the pc advances by 4 (41_rsc_register section 3, RSC_r_A1_RRX). -/
def Obligations.RscRrxResult : Prop :=
  ∀ (cond : Cond) (rd rn rm : RegNum) (s : State),
    conditionPassed cond s.pstate = true → rd.val ≠ 15 → CanAdvance s →
    let c : Int := s.pstate.c.toNat
    let value : Word := BitVec.ofInt 32
      ((c * 2 ^ 31 + (s.readReg rm).toNat / 2) - (s.readReg rn).toNat - (1 - c))
    exec (.rscRrx cond rd rn rm) s = .next { s.writeReg rd value with pc := s.pc + 4#32 }

/-- RSC_r_A1 with Rd other than the PC completes: Rd is `Shift(x[m]) - x[n] - (1 - C)` modulo 2^32, no flag is written,
the pc advances by 4 (41_rsc_register section 3, RSC_r_A1). -/
def Obligations.RscShiftResult : Prop :=
  ∀ (cond : Cond) (rd rn rm : RegNum) (st : SType) (imm5 : BitVec 5) (s : State),
    conditionPassed cond s.pstate = true → rd.val ≠ 15 → CanAdvance s →
    let sh := decodeImmShift st imm5
    let shifted := shift (s.readReg rm) sh.1 sh.2 s.pstate.c
    let value : Word := BitVec.ofInt 32
      ((shifted.toNat : Int) - (s.readReg rn).toNat - (1 - (s.pstate.c.toNat : Int)))
    exec (.rsc cond rd rn rm st imm5) s = .next { s.writeReg rd value with pc := s.pc + 4#32 }

/-- RSCS_r_A1_RRX with Rd other than the PC completes: the result as for RSC, and N, Z, C, V from the subtraction, not
from the shifter (41_rsc_register section 3, RSCS_r_A1_RRX, and section 6, flags). -/
def Obligations.RscsRrxResultAndFlags : Prop :=
  ∀ (cond : Cond) (rd rn rm : RegNum) (s : State),
    conditionPassed cond s.pstate = true → rd.val ≠ 15 → CanAdvance s →
    let a := s.readReg rn
    let shifted : Word := BitVec.ofNat 32 (s.pstate.c.toNat * 2 ^ 31 + (s.readReg rm).toNat / 2)
    exec (.rscsRrx cond rd rn rm) s =
      .next { s.writeReg rd (reverseDiff a shifted s.pstate.c) with
        pc := s.pc + 4#32, pstate := s.pstate.withDiffFlags a shifted }

/-- RSCS_r_A1 with Rd other than the PC completes: the result as for RSC, and N, Z, C, V from the subtraction, not from
the shifter (41_rsc_register section 3, RSCS_r_A1, and section 6, flags). -/
def Obligations.RscsShiftResultAndFlags : Prop :=
  ∀ (cond : Cond) (rd rn rm : RegNum) (st : SType) (imm5 : BitVec 5) (s : State),
    conditionPassed cond s.pstate = true → rd.val ≠ 15 → CanAdvance s →
    let a := s.readReg rn
    let sh := decodeImmShift st imm5
    let shifted := shift (s.readReg rm) sh.1 sh.2 s.pstate.c
    exec (.rscs cond rd rn rm st imm5) s =
      .next { s.writeReg rd (reverseDiff a shifted s.pstate.c) with
        pc := s.pc + 4#32, pstate := s.pstate.withDiffFlags a shifted }

/-- A failed condition: every instruction, in every mode and for every Rd, only advances the pc (41_rsc_register
section 4). -/
def Obligations.FailedConditionOnlyAdvances : Prop :=
  ∀ (i : Instr) (s : State), conditionPassed i.cond s.pstate = false → CanAdvance s →
    exec i s = .next { s with pc := s.pc + 4#32 }

/-- An instruction that does not write the PC stops at the top of the address space with AddressSpaceWrap, the model's
fault for a sequential successor that overflows (10_state section 2, wrap-around; entry 15). -/
def Obligations.SequentialWrapFaults : Prop :=
  ∀ (i : Instr) (s : State), ¬ CanAdvance s → (conditionPassed i.cond s.pstate = false ∨ i.rd.val ≠ 15) →
    exec i s = .fault .addressSpaceWrap

/-- RSC and RSCS of a register with itself, not shifted, give 0 with C set and all ones with C clear (41_rsc_register
section 6, the same register in several roles). -/
def Obligations.RegisterMinusItself : Prop :=
  ∀ (cond : Cond) (rd rx : RegNum) (s : State),
    conditionPassed cond s.pstate = true → rd.val ≠ 15 → CanAdvance s →
    let value : Word := if s.pstate.c then 0x00000000#32 else 0xFFFFFFFF#32
    exec (.rsc cond rd rx rx .lsl 0#5) s = .next { s.writeReg rd value with pc := s.pc + 4#32 } ∧
    exec (.rscs cond rd rx rx .lsl 0#5) s =
      .next { s.writeReg rd value with
        pc := s.pc + 4#32
        pstate := { s.pstate with n := !s.pstate.c, z := s.pstate.c, c := s.pstate.c, v := false } }

/-- RSC with the PC as Rd is an interworking branch to the result, bit 0 selecting the instruction set: it completes,
changing the pc and T alone, but for a target with bits [1:0] = 10, which is CONSTRAINED UNPREDICTABLE, a fault at the
branch by the spec's decision D7 (40_shared_operations section 7, ALUWritePC; entry 10). -/
def Obligations.InterworkingBranch : Prop :=
  ∀ (i : Instr) (s : State), i.setflags = false → i.rd.val = 15 → conditionPassed i.cond s.pstate = true →
    let shifted := shift (s.readReg i.rm) (immShift i).1 (immShift i).2 s.pstate.c
    let target := reverseDiff (s.readReg i.rn) shifted s.pstate.c
    (target.toNat % 2 = 1 → exec i s = .next { s with pc := target - 1#32, pstate := { s.pstate with t := true } }) ∧
    (target.toNat % 4 = 0 → exec i s = .next { s with pc := target, pstate := { s.pstate with t := false } }) ∧
    (target.toNat % 4 = 2 → exec i s = .fault .constrainedUnpredictableBranchToUnalignedA32)

/-- RSCS with the PC as Rd completes in every mode that returns: PSTATE from the SPSR of the mode, field by field, the
target fitted to the restored state, the local exclusive monitor cleared, a local event sent. The model takes the
option of decision D10 (60_exceptions section 5, ExceptionReturn; entries 6, 7, 14). -/
def Obligations.ExceptionReturnRestores : Prop :=
  ∀ (i : Instr) (s : State), i.setflags = true → i.rd.val = 15 → conditionPassed i.cond s.pstate = true →
    ReturnsFrom s.mode →
    let shifted := shift (s.readReg i.rm) (immShift i).1 (immShift i).2 s.pstate.c
    let target := reverseDiff (s.readReg i.rn) shifted s.pstate.c
    ∃ spsr t, s.spsr.ofMode s.mode = some spsr ∧ exec i s = .next t ∧
      (illegalReturn spsr s.mode = true → t.pstate.il = true ∧ t.mode = s.mode) ∧
      (illegalReturn spsr s.mode = false →
        t.pstate.il = spsr.getLsbD 20 ∧ modeBits t.mode = spsr.extractLsb' 0 5 ∧
        (Config.haveSSBS = true → t.pstate.ssbs = spsr.getLsbD 23)) ∧
      (Config.haveSSBS = false → t.pstate.ssbs = s.pstate.ssbs) ∧
      t.pstate.n = spsr.getLsbD 31 ∧ t.pstate.z = spsr.getLsbD 30 ∧ t.pstate.c = spsr.getLsbD 29 ∧
      t.pstate.v = spsr.getLsbD 28 ∧ t.pstate.q = spsr.getLsbD 27 ∧
      t.pstate.pan = (if Config.havePAN then spsr.getLsbD 22 else s.pstate.pan) ∧
      t.pstate.dit = (if Config.haveDIT then spsr.getLsbD 21 else s.pstate.dit) ∧
      t.pstate.ge = spsr.extractLsb' 16 4 ∧ t.pstate.e = spsr.getLsbD 9 ∧ t.pstate.a = spsr.getLsbD 8 ∧
      t.pstate.i = spsr.getLsbD 7 ∧ t.pstate.f = spsr.getLsbD 6 ∧
      (t.pstate.il = false → t.pstate.t = spsr.getLsbD 5) ∧
      (t.pstate.il = true → t.pstate.t = spsr.getLsbD 5 ∨ t.pstate.t = false) ∧
      (t.pstate.t = true → t.pstate.it = spsr.extractLsb' 10 6 ++ spsr.extractLsb' 25 2) ∧
      (t.pstate.t = false → t.pstate.it = 0#8) ∧
      (t.pstate.il = false → t.pstate.t = true → t.pc.toNat = target.toNat / 2 * 2) ∧
      (t.pstate.il = false → t.pstate.t = false → t.pc.toNat = target.toNat / 4 * 4) ∧
      (t.pstate.il = true → t.pc.toNat / 4 = target.toNat / 4) ∧
      t.exclusiveMonitor = false ∧ t.eventRegister = true

/-- A saved status whose mode bits name no mode is an illegal return event: IL is set, the mode stays, and the next
step takes the Illegal Execution state exception, a terminal fault (60_exceptions section 5, illegal return event (a);
entries 7, 12). -/
def Obligations.ReservedSavedModeIsIllegal : Prop :=
  ∀ (i : Instr) (s : State) (spsr : Word), i.setflags = true → i.rd.val = 15 →
    conditionPassed i.cond s.pstate = true → ReturnsFrom s.mode → s.spsr.ofMode s.mode = some spsr →
    modeOfBits (spsr.extractLsb' 0 5) = none →
    ∃ t, exec i s = .next t ∧ t.pstate.il = true ∧ t.mode = s.mode ∧
      (runEnded t = false → step t = .fault (.undefinedInstruction t.pc .illegalState))

/-- RSCS with the PC as Rd, condition passed, at every pc: UNDEFINED in Hyp mode, and CONSTRAINED UNPREDICTABLE in User
and System mode, a fault by the spec's decision D9 (40_shared_operations section 7, mode checks; entries 9, 11). -/
def Obligations.NoReturnFromHypUserOrSystem : Prop :=
  ∀ (i : Instr) (s : State), i.setflags = true → i.rd.val = 15 → conditionPassed i.cond s.pstate = true →
    (s.mode = .hyp → exec i s = .fault (.undefinedInstruction s.pc .instruction)) ∧
    (s.mode = .user ∨ s.mode = .system → exec i s = .fault .constrainedUnpredictableALUExceptionReturn)

/-- Two instructions subtract 64-bit values, the PC being none of their registers: RSCS on the low words with C set, then RSC on the high words
(41_rsc_register section 6, use in multi-word arithmetic). -/
def Obligations.SixtyFourBitReverseSubtract : Prop :=
  ∀ (s : State) (dl nl ml dh nh mh : RegNum),
    dl.val ≠ 15 → nl.val ≠ 15 → ml.val ≠ 15 → dh.val ≠ 15 → nh.val ≠ 15 → mh.val ≠ 15 →
    dl ≠ nh → dl ≠ mh → dh ≠ dl → s.pstate.c = true → s.pc.toNat + 8 < 2 ^ 32 →
    ∃ t u, exec (.rscs .al dl nl ml .lsl 0#5) s = .next t ∧ exec (.rsc .al dh nh mh .lsl 0#5) t = .next u ∧
      u.readReg dh ++ u.readReg dl =
        ((s.readReg mh ++ s.readReg ml) - (s.readReg nh ++ s.readReg nl) : BitVec 64)

/-! Frames -/

/-- RSC_r_A1_RRX and RSC_r_A1 with Rd other than the PC change nothing but Rd and the pc (41_rsc_register section 6,
what the instruction never does). -/
def Obligations.RscFrame : Prop :=
  ∀ (i : Instr) (s t : State), i.setflags = false → i.rd.val ≠ 15 → exec i s = .next t →
    (∀ p : PhysReg, (∀ h : i.rd.val < 15, p ≠ bankedReg s.mode ⟨i.rd.val, h⟩) → t.regs.get p = s.regs.get p) ∧
    t.pstate = s.pstate ∧ t.spsr = s.spsr ∧ t.exclusiveMonitor = s.exclusiveMonitor ∧
    t.eventRegister = s.eventRegister ∧ t.endAddr = s.endAddr ∧ t.freeCount = s.freeCount ∧
    (∀ a : Nat, Memory.read t.mem a = Memory.read s.mem a)

/-- RSCS_r_A1_RRX and RSCS_r_A1 with Rd other than the PC change nothing but Rd, N, Z, C, V and the pc
(41_rsc_register section 6, what the instruction never does). -/
def Obligations.RscsFrame : Prop :=
  ∀ (i : Instr) (s t : State), i.setflags = true → i.rd.val ≠ 15 → exec i s = .next t →
    (∀ p : PhysReg, (∀ h : i.rd.val < 15, p ≠ bankedReg s.mode ⟨i.rd.val, h⟩) → t.regs.get p = s.regs.get p) ∧
    { t.pstate with n := s.pstate.n, z := s.pstate.z, c := s.pstate.c, v := s.pstate.v } = s.pstate ∧
    t.spsr = s.spsr ∧ t.exclusiveMonitor = s.exclusiveMonitor ∧ t.eventRegister = s.eventRegister ∧
    t.endAddr = s.endAddr ∧ t.freeCount = s.freeCount ∧
    (∀ a : Nat, Memory.read t.mem a = Memory.read s.mem a)

/-- RSC_r_A1_RRX and RSC_r_A1 with the PC as Rd change nothing but the pc and the instruction-set state: no general
register, no link register, no flag (41_rsc_register section 5). -/
def Obligations.RscBranchFrame : Prop :=
  ∀ (i : Instr) (s t : State), i.setflags = false → i.rd.val = 15 → exec i s = .next t →
    (∀ p : PhysReg, t.regs.get p = s.regs.get p) ∧
    { t.pstate with t := s.pstate.t } = s.pstate ∧ t.spsr = s.spsr ∧
    t.exclusiveMonitor = s.exclusiveMonitor ∧ t.eventRegister = s.eventRegister ∧ t.endAddr = s.endAddr ∧
    t.freeCount = s.freeCount ∧
    (∀ a : Nat, Memory.read t.mem a = Memory.read s.mem a)

/-- RSCS_r_A1_RRX and RSCS_r_A1 with the PC as Rd write no general register of any bank, no SPSR and no memory, and
outside the modes that return nothing but the pc (40_shared_operations section 7, the return proper). -/
def Obligations.RscsReturnFrame : Prop :=
  ∀ (i : Instr) (s t : State), i.setflags = true → i.rd.val = 15 → exec i s = .next t →
    (∀ p : PhysReg, t.regs.get p = s.regs.get p) ∧ t.spsr = s.spsr ∧ t.endAddr = s.endAddr ∧
    (∀ a : Nat, Memory.read t.mem a = Memory.read s.mem a) ∧
    (¬ ReturnsFrom s.mode → t.pstate = s.pstate ∧ t.exclusiveMonitor = s.exclusiveMonitor ∧
      t.eventRegister = s.eventRegister ∧ t.freeCount = s.freeCount)

/-! The step -/

/-- When the four bytes at an aligned pc decode to an instruction, in A32 state, without IL and with the run not ended,
the step is `exec` of that instruction on that state; nothing is added around it (20_memory section 3, 30_encoding
section 1). -/
def Obligations.StepRunsDecodedInstruction : Prop :=
  ∀ (s : State) (b0 b1 b2 b3 : Byte) (i : Instr),
    runEnded s = false → s.pstate.il = false → InA32State s → PCAligned s →
    Memory.read s.mem s.pc.toNat = some b0 → Memory.read s.mem (s.pc.toNat + 1) = some b1 →
    Memory.read s.mem (s.pc.toNat + 2) = some b2 → Memory.read s.mem (s.pc.toNat + 3) = some b3 →
    decode [b0, b1, b2, b3] = .ok (i, []) → step s = exec i s

/-- A fetched word that is none of the four encodings is refused by name, with the word (30_encoding section 4; entry
1). -/
def Obligations.StepRefusesOtherWords : Prop :=
  ∀ (s : State) (w : Word), runEnded s = false → s.pstate.il = false → InA32State s → progWord s.mem s.pc = some w →
    (w &&& 0x0FE00010#32 ≠ 0x00E00000#32 ∨ w.extractLsb' 28 4 = 0b1111#4) →
    step s = .refused (.notRSCRegister w)

/-- What stops a step before an instruction runs: the Illegal Execution state, T32 state, a misaligned pc, no program
word (20_memory section 3, 60_exceptions section 1; entries 3, 12, 24). -/
def Obligations.StepStopsBeforeExecution : Prop :=
  ∀ s : State, runEnded s = false →
    (s.pstate.il = true → step s = .fault (.undefinedInstruction s.pc .illegalState)) ∧
    (s.pstate.il = false → s.pstate.t = true → step s = .refused .leftA32State) ∧
    (s.pstate.il = false → InA32State s → ¬ PCAligned s → step s = .fault .pcMisalignedAtFetch) ∧
    (s.pstate.il = false → InA32State s → PCAligned s → ¬ ProgramDefinedAt s s.pc → step s = .fault .noProgramWord)

/-- At the end address, a multiple of 4, in A32 state the run has ended and the state stays (70_reset_and_hazards
section 5, the model's definition of the end of a run; entry 4). -/
def Obligations.EndedRunStays : Prop :=
  ∀ s : State, s.endAddr = some s.pc → PCAligned s → InA32State s → step s = .next s

/-- A program word is its four bytes little-endian, at word-aligned addresses only (20_memory section 3, byte order;
entry 3). -/
def Obligations.ProgramWordsAreLittleEndian : Prop :=
  ∀ (m : Memory) (addr w : Word), progWord m addr = some w ↔
    (addr.toNat % 4 = 0 ∧ Memory.read m addr.toNat = some (w.extractLsb' 0 8) ∧
      Memory.read m (addr.toNat + 1) = some (w.extractLsb' 8 8) ∧
      Memory.read m (addr.toNat + 2) = some (w.extractLsb' 16 8) ∧
      Memory.read m (addr.toNat + 3) = some (w.extractLsb' 24 8))

/-- The state after reset is the model's choice (entries 4, 16, 17, 18, 20): the family's Supervisor mode in A32 state
at address 0 with A, I and F masked, zero in every register and field that the family calls UNKNOWN, in every SPSR and
in E, the monitor and the event register clear, no end address and no program. -/
def Obligations.ResetState : Prop :=
  InA32State State.reset ∧ PCAligned State.reset ∧ ModeIs State.reset .supervisor ∧ State.reset.pc = 0#32 ∧
  State.reset.pstate.a = true ∧ State.reset.pstate.i = true ∧ State.reset.pstate.f = true ∧
  State.reset.pstate.il = false ∧ State.reset.pstate.it = 0#8 ∧ State.reset.pstate.dit = false ∧
  State.reset.pstate.e = false ∧ State.reset.pstate.n = false ∧ State.reset.pstate.z = false ∧
  State.reset.pstate.c = false ∧ State.reset.pstate.v = false ∧ State.reset.pstate.q = false ∧
  State.reset.pstate.ge = 0#4 ∧ State.reset.pstate.ssbs = false ∧ State.reset.pstate.pan = false ∧
  (∀ p : PhysReg, State.reset.regs.get p = 0#32) ∧
  (∀ m : Mode, ∀ w : Word, State.reset.spsr.ofMode m = some w → w = 0#32) ∧
  State.reset.exclusiveMonitor = false ∧ State.reset.eventRegister = false ∧ State.reset.endAddr = none ∧
  (∀ a : Nat, Memory.read State.reset.mem a = none)

/-- The invariant holds after reset. -/
def Obligations.ResetMeetsInvariant : Prop := Inv State.reset

/-- Every step keeps the invariant: canonical memory, an implemented mode, IT zero in A32 state, a pc aligned to the
instruction set without IL, an aligned end address, unimplemented PSTATE bits zero. The mode clause rests on entry 7 and
the pc clauses on entries 10 and 14. -/
def Obligations.StepKeepsInvariant : Prop :=
  ∀ s t : State, Inv s → step s = .next t → Inv t

/-- Without IL, a step to A32 state leaves the pc a multiple of 4, from every state: a branch to a target with bits
[1:0] = 10 faults instead (20_memory section 3, alignment of fetch; entries 10, 14). -/
def Obligations.A32PcStaysAligned : Prop :=
  ∀ s t : State, step s = .next t → InA32State t → t.pstate.il = false → PCAligned t

/-- No step writes the program, the end address or a saved status: no instruction accesses data memory, and nothing in
scope writes an SPSR (20_memory section 1 and 3, 10_state section 4). -/
def Obligations.StepLeavesProgramAndSavedStatus : Prop :=
  ∀ s t : State, step s = .next t → t.mem = s.mem ∧ t.endAddr = s.endAddr ∧ t.spsr = s.spsr

/-- The mode changes only by an exception return: a step leaves it alone or ran RSCS with Rd = PC, condition passed, in a
mode that returns, with a legal saved status whose mode bits are the new mode's (10_state section 4, mode). -/
def Obligations.ModeChangesOnlyByExceptionReturn : Prop :=
  ∀ s t : State, step s = .next t →
    t.mode = s.mode ∨
    ∃ i spsr, fetchInstr s = .next i ∧ i.setflags = true ∧ i.rd.val = 15 ∧
      conditionPassed i.cond s.pstate = true ∧ ReturnsFrom s.mode ∧ s.spsr.ofMode s.mode = some spsr ∧
      illegalReturn spsr s.mode = false ∧ modeBits t.mode = spsr.extractLsb' 0 5

/-- The interrupt masks A, I and F change only by an exception return, which loads them from the SPSR of the mode
(60_exceptions section 2). -/
def Obligations.MasksChangeOnlyByExceptionReturn : Prop :=
  ∀ s t : State, step s = .next t →
    (t.pstate.a = s.pstate.a ∧ t.pstate.i = s.pstate.i ∧ t.pstate.f = s.pstate.f) ∨
    ∃ i spsr, fetchInstr s = .next i ∧ i.setflags = true ∧ i.rd.val = 15 ∧
      conditionPassed i.cond s.pstate = true ∧ ReturnsFrom s.mode ∧ s.spsr.ofMode s.mode = some spsr ∧
      t.pstate.a = spsr.getLsbD 8 ∧ t.pstate.i = spsr.getLsbD 7 ∧ t.pstate.f = spsr.getLsbD 6

/-- The mode matters to no instruction but RSCS with Rd = PC: two states that agree in register view, pc, PSTATE but M
and free counter have outcomes that agree in these, or the same fault or refusal (60_exceptions section 7, what the mode
changes). The other fields are the frames' matter: RscFrame, RscsFrame and RscBranchFrame. -/
def Obligations.ModeMattersOnlyToExceptionReturn : Prop :=
  ∀ (i : Instr) (s₁ s₂ : State), ¬ (i.setflags = true ∧ i.rd.val = 15) → SameButMode s₁ s₂ →
    OutcomesAgree (exec i s₁) (exec i s₂)

/-! Assembly -/

/-- The line of a well-formed instruction assembles to it (30_encoding section 5). -/
def Obligations.DisassembleThenAssemble : Prop :=
  ∀ i : Instr, i.wellFormed = true → assemble (disassemble i) = some i

/-- What a line assembles to is well formed, has the line's registers, condition and S, an omitted Rd being Rn and an
omitted condition AL, and shifts by the line's amount (30_encoding section 5). -/
def Obligations.AssembledLineMeansItsText : Prop :=
  ∀ (l : AsmLine) (i : Instr), assemble l = some i →
    i.wellFormed = true ∧ i.setflags = l.sets ∧ i.cond = l.cond.getD .al ∧ i.rd = l.rd.getD l.rn ∧
    i.rn = l.rn ∧ i.rm = l.rm ∧
    immShift i = shiftOfLine l.shift

/-- Deprecated uses are flagged by name, the PC as Rd and the PC as Rn or Rm, and refused by nothing: which register an
instruction names never makes it ill formed, and the word of every well-formed instruction decodes to it
(70_reset_and_hazards section 3; entry 26). -/
def Obligations.DeprecatedUsesAreFlagged : Prop :=
  (∀ i : Instr,
    (Deprecation.pcDestination ∈ i.deprecations ↔ i.rd.val = 15) ∧
    (Deprecation.pcSource ∈ i.deprecations ↔ (i.rn.val = 15 ∨ i.rm.val = 15)) ∧
    (i.wellFormed = true → decodeWord (encode i) = .ok i)) ∧
  (∀ (c : Cond) (d n m d' n' m' : RegNum) (st : SType) (imm5 : BitVec 5),
    (Instr.rscRrx c d n m).wellFormed = true ∧ (Instr.rscsRrx c d n m).wellFormed = true ∧
    (Instr.rsc c d n m st imm5).wellFormed = (Instr.rsc c d' n' m' st imm5).wellFormed ∧
    (Instr.rscs c d n m st imm5).wellFormed = (Instr.rscs c d' n' m' st imm5).wellFormed)
end

