-- ==== Sys2Proof/Laws/Encoding.lean ====
section
/-! SUPPORT. The fields of a packed word, and the tables of conditions, shift types and registers read back. -/
namespace Sys2Proof

section
variable (cond rn rd rm : BitVec 4) (sb : BitVec 1) (imm5 : BitVec 5) (stype : BitVec 2)

/-- The unsigned value of a packed word: each field at its place (30_encoding R38). -/
theorem packA1_toNat : (packA1 cond sb rn rd imm5 stype rm).toNat =
    cond.toNat * 2 ^ 28 + 7 * 2 ^ 21 + sb.toNat * 2 ^ 20 + rn.toNat * 2 ^ 16 + rd.toNat * 2 ^ 12 +
      imm5.toNat * 2 ^ 7 + stype.toNat * 2 ^ 5 + rm.toNat := by
  have h (m n : Nat) (x : BitVec m) (y : BitVec n) : (x ++ y).toNat = x.toNat * 2 ^ n + y.toNat := by
    rw [BitVec.toNat_append, Nat.shiftLeft_eq, Nat.mul_comm, Nat.two_pow_add_eq_or_of_lt y.isLt]
  unfold packA1
  simp only [h]
  simp only [BitVec.toNat_ofNat]
  omega

@[simp] theorem fieldCond_packA1 : fieldCond (packA1 cond sb rn rd imm5 stype rm) = cond := by
  apply BitVec.eq_of_toNat_eq
  simp only [fieldCond, BitVec.extractLsb'_toNat, packA1_toNat, Nat.shiftRight_eq_div_pow]
  omega

@[simp] theorem fieldS_packA1 : fieldS (packA1 cond sb rn rd imm5 stype rm) = sb := by
  apply BitVec.eq_of_toNat_eq
  simp only [fieldS, BitVec.extractLsb'_toNat, packA1_toNat, Nat.shiftRight_eq_div_pow]
  omega

@[simp] theorem fieldRn_packA1 : fieldRn (packA1 cond sb rn rd imm5 stype rm) = rn := by
  apply BitVec.eq_of_toNat_eq
  simp only [fieldRn, BitVec.extractLsb'_toNat, packA1_toNat, Nat.shiftRight_eq_div_pow]
  omega

@[simp] theorem fieldRd_packA1 : fieldRd (packA1 cond sb rn rd imm5 stype rm) = rd := by
  apply BitVec.eq_of_toNat_eq
  simp only [fieldRd, BitVec.extractLsb'_toNat, packA1_toNat, Nat.shiftRight_eq_div_pow]
  omega

@[simp] theorem fieldImm5_packA1 : fieldImm5 (packA1 cond sb rn rd imm5 stype rm) = imm5 := by
  apply BitVec.eq_of_toNat_eq
  simp only [fieldImm5, BitVec.extractLsb'_toNat, packA1_toNat, Nat.shiftRight_eq_div_pow]
  omega

@[simp] theorem fieldStype_packA1 : fieldStype (packA1 cond sb rn rd imm5 stype rm) = stype := by
  apply BitVec.eq_of_toNat_eq
  simp only [fieldStype, BitVec.extractLsb'_toNat, packA1_toNat, Nat.shiftRight_eq_div_pow]
  omega

@[simp] theorem fieldRm_packA1 : fieldRm (packA1 cond sb rn rd imm5 stype rm) = rm := by
  apply BitVec.eq_of_toNat_eq
  simp only [fieldRm, BitVec.extractLsb'_toNat, packA1_toNat, Nat.shiftRight_eq_div_pow]
  omega

/-- A packed word has the fixed bits of class A1 (30_encoding R39). -/
theorem hasClassBits_packA1 : hasClassBits (packA1 cond sb rn rd imm5 stype rm) = true := by
  have h1 : (packA1 cond sb rn rd imm5 stype rm) &&& 0x0FE00010#32 = 0x00E00000#32 := by
    ext i hi
    simp only [packA1, BitVec.getElem_and, BitVec.getElem_append]
    interval_cases i <;> simp
  simp [hasClassBits, h1]

end

/-- A match and mask test bit by bit, for the tables of 30_encoding R42. -/
theorem and_eq_iff_bits (w mask value : Word) (h : value &&& mask = value) :
    w &&& mask = value ↔ ∀ i, i < 32 → mask.getLsbD i = true → w.getLsbD i = value.getLsbD i := by
  constructor
  · intro e i _ hm
    rw [← e, BitVec.getLsbD_and, hm, Bool.and_true]
  · intro hb
    apply BitVec.eq_of_getLsbD_eq
    intro i hi
    rw [← h, BitVec.getLsbD_and, BitVec.getLsbD_and]
    cases hm : mask.getLsbD i
    · simp
    · rw [hb i hi hm]

@[simp] theorem condOfBits_condBits (c : Cond) : condOfBits (condBits c) = some c := by cases c <;> rfl

@[simp] theorem stypeOfBits_stypeBits (t : SType) : stypeOfBits (stypeBits t) = t := by cases t <;> rfl

@[simp] theorem stypeBits_stypeOfBits (b : BitVec 2) : stypeBits (stypeOfBits b) = b := by
  revert b; decide

@[simp] theorem regOfBits_regBits (r : RegNum) : regOfBits (regBits r) = r := rfl

@[simp] theorem regBits_regOfBits (b : BitVec 4) : regBits (regOfBits b) = b := rfl

/-- A condition is read from exactly one value of the `cond` field. -/
theorem condOfBits_eq_some (b : BitVec 4) (c : Cond) : condOfBits b = some c ↔ b = condBits c := by
  revert b; cases c <;> decide

/-- The one value that is no condition is `1111` (30_encoding R41). -/
theorem condOfBits_eq_none (b : BitVec 4) : condOfBits b = none ↔ b = 0b1111#4 := by
  revert b; decide

end Sys2Proof
end

