-- ==== Sys2Proof/Laws/Memory.lean ====
section
/-! SUPPORT. Memory: a read after a write, and that every write keeps the canonical form. -/
namespace Sys2Proof.Machine

/-- Reading the address just written gives the byte written. -/
@[simp] theorem read_write_same (m : Memory) (a : Nat) (v : Byte) :
    Memory.read (Memory.write m a v) a = some v := by
  induction m with
  | nil => simp [Memory.write, Memory.read]
  | cons hd tl ih =>
    obtain ⟨k, b⟩ := hd
    simp only [Memory.write]
    split
    · simp [Memory.read]
    · split
      · simp [Memory.read]
      · rename_i h; simp [Memory.read, h, ih]

/-- A write leaves every other address alone. -/
theorem read_write_ne (m : Memory) (a a' : Nat) (v : Byte) (h : a' ≠ a) :
    Memory.read (Memory.write m a v) a' = Memory.read m a' := by
  induction m with
  | nil => simp [Memory.write, Memory.read, h]
  | cons hd tl ih =>
    obtain ⟨k, b⟩ := hd
    simp only [Memory.write]
    split
    · simp [Memory.read, h]
    · split
      · rename_i hk; subst hk; simp [Memory.read, h]
      · simp only [Memory.read, ih]

/-- A write inside the address space keeps the addresses rising from any bound at or below it. -/
theorem write_wfFrom (m : Memory) (lo a : Nat) (v : Byte) (h : Memory.wfFrom lo m = true) (hlo : lo ≤ a)
    (ha : a < 2 ^ 32) : Memory.wfFrom lo (Memory.write m a v) = true := by
  induction m generalizing lo with
  | nil => simp [Memory.write, Memory.wfFrom, hlo]; omega
  | cons hd tl ih =>
    obtain ⟨k, b⟩ := hd
    simp only [Memory.wfFrom, Bool.and_eq_true, decide_eq_true_eq] at h
    obtain ⟨⟨h1, h2⟩, h3⟩ := h
    simp only [Memory.write]
    split
    · simp only [Memory.wfFrom, Bool.and_eq_true, decide_eq_true_eq]
      refine ⟨⟨hlo, ha⟩, ⟨?_, h2⟩, h3⟩; omega
    · split
      · rename_i hk; subst hk
        simp only [Memory.wfFrom, Bool.and_eq_true, decide_eq_true_eq]
        exact ⟨⟨hlo, ha⟩, h3⟩
      · simp only [Memory.wfFrom, Bool.and_eq_true, decide_eq_true_eq]
        exact ⟨⟨h1, h2⟩, ih (k + 1) h3 (by omega)⟩

/-- A byte write inside the address space keeps the canonical form. -/
theorem write_wf (m : Memory) (a : Nat) (v : Byte) (h : Memory.wf m = true) (ha : a < 2 ^ 32) :
    Memory.wf (Memory.write m a v) = true := write_wfFrom m 0 a v h (Nat.zero_le a) ha

/-- A word write inside the address space keeps the canonical form. -/
theorem writeWord_wf (m : Memory) (a : Nat) (w : Word) (h : Memory.wf m = true) (ha : a + 3 < 2 ^ 32) :
    Memory.wf (Memory.writeWord m a w) = true :=
  write_wf _ _ _ (write_wf _ _ _ (write_wf _ _ _ (write_wf _ _ _ h (by omega)) (by omega)) (by omega)) ha

/-- The memory after reset is canonical. -/
theorem reset_mem_wf : Memory.wf State.reset.mem = true := rfl

/-- A word's four bytes put together are the word. -/
theorem wordOfBytes_byteOfWord (w : Word) :
    wordOfBytes (byteOfWord w 0) (byteOfWord w 1) (byteOfWord w 2) (byteOfWord w 3) = w := by
  unfold wordOfBytes byteOfWord
  ext i hi
  simp only [BitVec.getElem_append, BitVec.getElem_extractLsb']
  split <;> [skip; split <;> [skip; split]] <;> rw [← BitVec.getLsbD_eq_getElem] <;> congr 1 <;> omega

/-- A word reads back from where it was stored. -/
theorem readWord_writeWord (m : Memory) (a : Nat) (w : Word) :
    Memory.readWord (Memory.writeWord m a w) a = some w := by
  unfold Memory.readWord Memory.writeWord
  simp [read_write_ne, wordOfBytes_byteOfWord]

end Sys2Proof.Machine
end

