-- ==== Sys2Proof/Laws/State.lean ====
section
/-! SUPPORT. One lemma per field per update of State and PSTATE, so that no proof unfolds a record update. -/
namespace Sys2Proof.Machine

variable (s : State) (p : PState) (n : RegNum) (v a : Word) (f : BitVec 4) (b : Bool)

/-! `withFlags` -/
@[simp] theorem withFlags_n : (p.withFlags f).n = f.getLsbD 3 := rfl
@[simp] theorem withFlags_z : (p.withFlags f).z = f.getLsbD 2 := rfl
@[simp] theorem withFlags_c : (p.withFlags f).c = f.getLsbD 1 := rfl
@[simp] theorem withFlags_v : (p.withFlags f).v = f.getLsbD 0 := rfl
@[simp] theorem withFlags_q : (p.withFlags f).q = p.q := rfl
@[simp] theorem withFlags_it : (p.withFlags f).it = p.it := rfl
@[simp] theorem withFlags_ssbs : (p.withFlags f).ssbs = p.ssbs := rfl
@[simp] theorem withFlags_pan : (p.withFlags f).pan = p.pan := rfl
@[simp] theorem withFlags_dit : (p.withFlags f).dit = p.dit := rfl
@[simp] theorem withFlags_il : (p.withFlags f).il = p.il := rfl
@[simp] theorem withFlags_ge : (p.withFlags f).ge = p.ge := rfl
@[simp] theorem withFlags_e : (p.withFlags f).e = p.e := rfl
@[simp] theorem withFlags_a : (p.withFlags f).a = p.a := rfl
@[simp] theorem withFlags_i : (p.withFlags f).i = p.i := rfl
@[simp] theorem withFlags_f : (p.withFlags f).f = p.f := rfl
@[simp] theorem withFlags_t : (p.withFlags f).t = p.t := rfl
@[simp] theorem withFlags_m : (p.withFlags f).m = p.m := rfl

/-! `writeReg` -/
@[simp] theorem writeReg_pc : (s.writeReg n v).pc = s.pc := by unfold State.writeReg; split <;> rfl
@[simp] theorem writeReg_pstate : (s.writeReg n v).pstate = s.pstate := by unfold State.writeReg; split <;> rfl
@[simp] theorem writeReg_spsr : (s.writeReg n v).spsr = s.spsr := by unfold State.writeReg; split <;> rfl
@[simp] theorem writeReg_exclusiveMonitor : (s.writeReg n v).exclusiveMonitor = s.exclusiveMonitor := by
  unfold State.writeReg; split <;> rfl
@[simp] theorem writeReg_eventRegister : (s.writeReg n v).eventRegister = s.eventRegister := by
  unfold State.writeReg; split <;> rfl
@[simp] theorem writeReg_mem : (s.writeReg n v).mem = s.mem := by unfold State.writeReg; split <;> rfl
@[simp] theorem writeReg_endAddr : (s.writeReg n v).endAddr = s.endAddr := by unfold State.writeReg; split <;> rfl
@[simp] theorem writeReg_freeCount : (s.writeReg n v).freeCount = s.freeCount := by
  unfold State.writeReg; split <;> rfl
@[simp] theorem writeReg_mode : (s.writeReg n v).mode = s.mode := by unfold State.writeReg; split <;> rfl

/-! `writeFlags` -/
@[simp] theorem writeFlags_regs : (s.writeFlags f).regs = s.regs := rfl
@[simp] theorem writeFlags_pc : (s.writeFlags f).pc = s.pc := rfl
@[simp] theorem writeFlags_pstate : (s.writeFlags f).pstate = s.pstate.withFlags f := rfl
@[simp] theorem writeFlags_spsr : (s.writeFlags f).spsr = s.spsr := rfl
@[simp] theorem writeFlags_exclusiveMonitor : (s.writeFlags f).exclusiveMonitor = s.exclusiveMonitor := rfl
@[simp] theorem writeFlags_eventRegister : (s.writeFlags f).eventRegister = s.eventRegister := rfl
@[simp] theorem writeFlags_mem : (s.writeFlags f).mem = s.mem := rfl
@[simp] theorem writeFlags_endAddr : (s.writeFlags f).endAddr = s.endAddr := rfl
@[simp] theorem writeFlags_freeCount : (s.writeFlags f).freeCount = s.freeCount := rfl
@[simp] theorem writeFlags_mode : (s.writeFlags f).mode = s.mode := rfl

/-! `branchTo` -/
@[simp] theorem branchTo_regs : (s.branchTo a b).regs = s.regs := rfl
@[simp] theorem branchTo_pc : (s.branchTo a b).pc = a := rfl
@[simp] theorem branchTo_pstate : (s.branchTo a b).pstate = { s.pstate with t := b } := rfl
@[simp] theorem branchTo_spsr : (s.branchTo a b).spsr = s.spsr := rfl
@[simp] theorem branchTo_exclusiveMonitor : (s.branchTo a b).exclusiveMonitor = s.exclusiveMonitor := rfl
@[simp] theorem branchTo_eventRegister : (s.branchTo a b).eventRegister = s.eventRegister := rfl
@[simp] theorem branchTo_mem : (s.branchTo a b).mem = s.mem := rfl
@[simp] theorem branchTo_endAddr : (s.branchTo a b).endAddr = s.endAddr := rfl
@[simp] theorem branchTo_freeCount : (s.branchTo a b).freeCount = s.freeCount := rfl
@[simp] theorem branchTo_mode : (s.branchTo a b).mode = s.mode := rfl

/-! `exceptionReturn` -/
@[simp] theorem exceptionReturn_regs : (exceptionReturn a v s).regs = s.regs := rfl
@[simp] theorem exceptionReturn_pc : (exceptionReturn a v s).pc =
    returnTarget a (s.pstate.restored v s.freeCount) s.freeCount := rfl
@[simp] theorem exceptionReturn_pstate : (exceptionReturn a v s).pstate = s.pstate.restored v s.freeCount := rfl
@[simp] theorem exceptionReturn_spsr : (exceptionReturn a v s).spsr = s.spsr := rfl
@[simp] theorem exceptionReturn_exclusiveMonitor : (exceptionReturn a v s).exclusiveMonitor = false := rfl
@[simp] theorem exceptionReturn_eventRegister : (exceptionReturn a v s).eventRegister = true := rfl
@[simp] theorem exceptionReturn_mem : (exceptionReturn a v s).mem = s.mem := rfl
@[simp] theorem exceptionReturn_endAddr : (exceptionReturn a v s).endAddr = s.endAddr := rfl
@[simp] theorem exceptionReturn_freeCount : (exceptionReturn a v s).freeCount = s.freeCount + 1 := rfl

/-! Registers -/

/-- A physical register reads as what was last written to it. -/
@[simp] theorem get_set_same (r : RegFile) (q : PhysReg) (w : Word) : (r.set q w).get q = w := by
  cases q <;> simp [RegFile.get, RegFile.set]

/-- Writing one physical register leaves every other one alone. -/
theorem get_set_ne (r : RegFile) (q q' : PhysReg) (w : Word) (h : q' ≠ q) : (r.set q w).get q' = r.get q' := by
  cases q <;> cases q' <;>
    simp_all [RegFile.get, RegFile.set, Fin.ext_iff, eq_comm]

/-- Within one mode two register numbers never share a physical register. -/
theorem bankedReg_injective (m : Mode) (i j : Fin 15) (h : bankedReg m i = bankedReg m j) : i = j := by
  revert h
  cases m <;> simp only [bankedReg] <;> (repeat' split) <;> simp <;> omega

/-- A register number below 15 reads its banked copy. -/
theorem readReg_of_lt (r : RegNum) (h : r.val < 15) : s.readReg r = s.regs.get (bankedReg s.mode ⟨r.val, h⟩) := by
  simp [State.readReg, h]

/-- Register 15 reads the address of the instruction plus 8. -/
theorem readReg_fifteen (r : RegNum) (h : r.val = 15) : s.readReg r = s.pc + 8#32 := by
  simp [State.readReg, h]

/-- A register write replaces one physical register. -/
theorem writeReg_regs (r : RegNum) (h : r.val < 15) (w : Word) :
    (s.writeReg r w).regs = s.regs.set (bankedReg s.mode ⟨r.val, h⟩) w := by
  simp [State.writeReg, h]

end Sys2Proof.Machine
end

