-- ==== Sys2Proof/Laws/Ops.lean ====
section
/-! SUPPORT. For each shared operation, one lemma that says everything it can do, and what one instruction can do. -/
namespace Sys2Proof.Machine

/-! The arithmetic -/

@[simp] theorem nzcvOf_bit3 (n z c v : Bool) : (nzcvOf n z c v).getLsbD 3 = n := by
  cases n <;> cases z <;> cases c <;> cases v <;> rfl
@[simp] theorem nzcvOf_bit2 (n z c v : Bool) : (nzcvOf n z c v).getLsbD 2 = z := by
  cases n <;> cases z <;> cases c <;> cases v <;> rfl
@[simp] theorem nzcvOf_bit1 (n z c v : Bool) : (nzcvOf n z c v).getLsbD 1 = c := by
  cases n <;> cases z <;> cases c <;> cases v <;> rfl
@[simp] theorem nzcvOf_bit0 (n z c v : Bool) : (nzcvOf n z c v).getLsbD 0 = v := by
  cases n <;> cases z <;> cases c <;> cases v <;> rfl

/-! The PC -/

@[simp] theorem clearBit0_bit0 (a : Word) : (clearBit0 a).getLsbD 0 = false := by
  simp only [clearBit0, BitVec.getLsbD_append]
  simp

@[simp] theorem withLowBits_bit0 (a : Word) (low : BitVec 2) : (withLowBits a low).getLsbD 0 = low.getLsbD 0 := by
  simp only [withLowBits, BitVec.getLsbD_append]
  simp

/-- The value of an address with other bits [1:0]. -/
theorem withLowBits_toNat (a : Word) (low : BitVec 2) :
    (withLowBits a low).toNat = a.toNat / 4 * 4 + low.toNat := by
  have := a.isLt
  rw [withLowBits, BitVec.toNat_append, Nat.shiftLeft_eq, Nat.mul_comm, ← Nat.two_pow_add_eq_or_of_lt low.isLt,
    BitVec.extractLsb'_toNat, Nat.shiftRight_eq_div_pow]
  omega

/-- The value of an address with bit 0 cleared. -/
theorem clearBit0_toNat (a : Word) : (clearBit0 a).toNat = a.toNat / 2 * 2 := by
  have := a.isLt
  rw [clearBit0, BitVec.toNat_append, Nat.shiftLeft_eq, Nat.mul_comm, ← Nat.two_pow_add_eq_or_of_lt (by decide),
    BitVec.extractLsb'_toNat, Nat.shiftRight_eq_div_pow]
  simp
  omega

/-- All that advancing the pc can do (10_state R15, R16). -/
theorem advance_cases (s : State) :
    (s.pc.toNat + 4 < 2 ^ 32 ∧ s.advance = .next { s with pc := s.pc + 4#32 }) ∨
      (2 ^ 32 ≤ s.pc.toNat + 4 ∧ s.advance = .fault .addressSpaceWrap) := by
  unfold State.advance
  split
  · exact .inl ⟨‹_›, rfl⟩
  · exact .inr ⟨by omega, rfl⟩

/-- A pc that advances does so by 4 without wrapping. -/
theorem advance_next (s t : State) (h : s.advance = .next t) :
    s.pc.toNat + 4 < 2 ^ 32 ∧ t = { s with pc := s.pc + 4#32 } := by
  unfold State.advance at h
  split at h
  · exact ⟨‹_›, by simpa using h.symm⟩
  · cases h

/-- All that an interworking branch can do (40_shared_operations R70). -/
theorem aluWritePC_cases (address : Word) (s : State) :
    (address.getLsbD 0 = true ∧ aluWritePC address s = .next (s.branchTo (clearBit0 address) true)) ∨
      (address.getLsbD 0 = false ∧ address.getLsbD 1 = true ∧
        aluWritePC address s = .fault .constrainedUnpredictableBranchToUnalignedA32) ∨
      (address.getLsbD 0 = false ∧ address.getLsbD 1 = false ∧
        aluWritePC address s = .next (s.branchTo address false)) := by
  unfold aluWritePC
  cases h0 : address.getLsbD 0 <;> cases h1 : address.getLsbD 1 <;> simp

/-- All that ALUExceptionReturn can do: UNDEFINED in Hyp mode, the fault in User and System mode, and the return
through the SPSR of the mode in every other (40_shared_operations R71, R72). -/
theorem aluExceptionReturn_cases (address : Word) (s : State) :
    (s.mode = .hyp ∧ aluExceptionReturn address s = .fault (raiseUndefined .instruction s)) ∨
      ((s.mode = .user ∨ s.mode = .system) ∧
        aluExceptionReturn address s = .fault .constrainedUnpredictableALUExceptionReturn) ∨
      ∃ spsr, s.spsr.ofMode s.mode = some spsr ∧ s.mode ≠ .hyp ∧
        aluExceptionReturn address s = .next (exceptionReturn address spsr s) := by
  unfold aluExceptionReturn
  cases s.mode <;> simp [SpsrFile.ofMode]

/-- A next state of ALUExceptionReturn is the return through the SPSR of the mode. -/
theorem aluExceptionReturn_next (address : Word) (s t : State) (h : aluExceptionReturn address s = .next t) :
    ∃ spsr, s.spsr.ofMode s.mode = some spsr ∧ s.mode ≠ .hyp ∧ t = exceptionReturn address spsr s := by
  rcases aluExceptionReturn_cases address s with ⟨-, e⟩ | ⟨-, e⟩ | ⟨spsr, hs, hm, e⟩ <;> rw [e] at h <;> cases h
  exact ⟨spsr, hs, hm, rfl⟩

/-- The mode after a return exists if the mode before it does (60_exceptions R97 (a), R100). -/
theorem restored_mode_implemented (p : PState) (spsr : Word) (k : Nat) (h : modeImplemented p.m = true) :
    modeImplemented (p.restored spsr k).m = true := by
  simp only [PState.restored]
  split
  · exact h
  · rename_i hl
    simp only [illegalReturn, Bool.or_eq_true, not_or, Bool.not_eq_true] at hl
    have h1 := hl.1
    unfold implementedModeOfBits at h1
    split at h1
    · rename_i m hm
      split at h1
      · rename_i hi; rw [hm]; exact hi
      · cases h1
    · cases h1

/-- A return leaves IT zero in A32 state (60_exceptions R96). -/
theorem restored_it (p : PState) (spsr : Word) (k : Nat) (h : (p.restored spsr k).t = false) :
    (p.restored spsr k).it = 0#8 := by
  simp only [PState.restored] at h ⊢
  rw [h]
  simp

/-! One instruction -/

/-- Every instruction is the common operation on its decoded operands (41_rsc_register R73). -/
theorem exec_eq_operation (i : Instr) (s : State) :
    exec i s = rscOperation i.setflags (immShift i) i.cond i.rd i.rn i.rm s := by
  cases i <;> rfl

/-- Everything an instruction that answers a next state can have done. -/
theorem exec_next_cases (i : Instr) (s t : State) (h : exec i s = .next t) :
    (conditionPassed i.cond s.pstate = false ∧ s.advance = .next t) ∨
      (i.rd.val ≠ 15 ∧ i.setflags = false ∧
        (s.writeReg i.rd (rscResult i.rn i.rm (immShift i) s).1).advance = .next t) ∨
      (i.rd.val ≠ 15 ∧ i.setflags = true ∧
        ((s.writeReg i.rd (rscResult i.rn i.rm (immShift i) s).1).writeFlags
          (rscResult i.rn i.rm (immShift i) s).2).advance = .next t) ∨
      (i.rd.val = 15 ∧ i.setflags = false ∧ aluWritePC (rscResult i.rn i.rm (immShift i) s).1 s = .next t) ∨
      (i.rd.val = 15 ∧ i.setflags = true ∧ conditionPassed i.cond s.pstate = true ∧
        aluExceptionReturn (rscResult i.rn i.rm (immShift i) s).1 s = .next t) := by
  rw [exec_eq_operation, rscOperation] at h
  split at h
  · rename_i hc
    simp only [rscWriteBack] at h
    split at h <;> split at h <;> simp_all
  · rename_i hc
    exact .inl ⟨by simpa using hc, h⟩

end Sys2Proof.Machine
end

