-- ==== Sys2Proof/Laws/PerInstr.lean ====
section
/-! SUPPORT. Statements about every instruction, one lemma per constructor. -/
namespace Sys2Proof.Laws.EncodingClass

/-- The word of an instruction has the fixed bits of class A1, a condition other than `1111`, and the S bit of its
mnemonic (30_encoding R39, R41, R42). -/
def Statement (i : Instr) : Prop :=
  hasClassBits (encode i) = true ∧ fieldCond (encode i) ≠ 0b1111#4 ∧ (fieldS (encode i) = 1#1 ↔ i.setflags = true)

/-- No condition's field is `1111`. -/
theorem condBits_ne (c : Cond) : condBits c ≠ 0b1111#4 := by cases c <;> decide

theorem rscRrx (c : Cond) (rd rn rm : RegNum) : Statement (.rscRrx c rd rn rm) := by
  simp [Statement, encode, hasClassBits_packA1, condBits_ne, Instr.setflags]

theorem rsc (c : Cond) (rd rn rm : RegNum) (st : SType) (imm5 : BitVec 5) :
    Statement (.rsc c rd rn rm st imm5) := by
  simp [Statement, encode, hasClassBits_packA1, condBits_ne, Instr.setflags]

theorem rscsRrx (c : Cond) (rd rn rm : RegNum) : Statement (.rscsRrx c rd rn rm) := by
  simp [Statement, encode, hasClassBits_packA1, condBits_ne, Instr.setflags]

theorem rscs (c : Cond) (rd rn rm : RegNum) (st : SType) (imm5 : BitVec 5) :
    Statement (.rscs c rd rn rm st imm5) := by
  simp [Statement, encode, hasClassBits_packA1, condBits_ne, Instr.setflags]

end Sys2Proof.Laws.EncodingClass
end

