-- ==== Sys2Proof/Laws/Step.lean ====
section
/-! SUPPORT. What the fetch and a step can do. -/
namespace Sys2Proof.Machine

/-- An instruction is fetched only without IL, in A32 state, from an aligned pc where the program has its word. -/
theorem fetchInstr_next (s : State) (i : Instr) (h : fetchInstr s = .next i) :
    s.pstate.il = false ∧ s.pstate.t = false ∧ s.pc.toNat % 4 = 0 ∧
      ∃ w, progWord s.mem s.pc = some w ∧ decodeWord w = .ok i := by
  unfold fetchInstr at h
  split at h
  · cases h
  rename_i hil
  split at h
  · cases h
  rename_i ht
  split at h
  · cases h
  rename_i hpc
  split at h
  · cases h
  rename_i w hw
  split at h
  · rename_i j hj
    cases h
    exact ⟨by simpa using hil, by simpa using ht, by simpa using hpc, w, hw, hj⟩
  · cases h

/-- A step to a next state leaves an ended run alone or executes the fetched instruction. -/
theorem step_next_cases (s t : State) (h : step s = .next t) :
    (runEnded s = true ∧ t = s) ∨
      (runEnded s = false ∧ ∃ i, fetchInstr s = .next i ∧ exec i s = .next t) := by
  unfold step at h
  split at h
  · rename_i he
    cases h
    exact .inl ⟨he, rfl⟩
  · rename_i he
    split at h
    · rename_i i hi
      exact .inr ⟨by simpa using he, i, hi, h⟩
    · cases h
    · cases h

/-- What a state made ready by `withFetchWord` runs: exactly the word placed. -/
theorem step_withFetchWord (s : State) (w : Word) :
    step (s.withFetchWord 32 w.toNat) =
      match decodeWord w with
      | .ok i => exec i (s.withFetchWord 32 w.toNat)
      | .error _ => .refused (.notRSCRegister w) := by
  have hpc : (s.withFetchWord 32 w.toNat).pc = withLowBits s.pc 0b00#2 := rfl
  have hal : (withLowBits s.pc 0b00#2).toNat % 4 = 0 := by
    rw [withLowBits_toNat]; simp
  have hend : runEnded (s.withFetchWord 32 w.toNat) = false := by
    simp only [runEnded, State.withFetchWord, placeInstr]
    split <;> simp_all
  have hw : BitVec.ofNat 32 (w.toNat % 2 ^ 32) = w := by
    apply BitVec.eq_of_toNat_eq
    rw [BitVec.toNat_ofNat, Nat.mod_mod, Nat.mod_eq_of_lt w.isLt]
  have hword : progWord (s.withFetchWord 32 w.toNat).mem (s.withFetchWord 32 w.toNat).pc = some w := by
    rw [hpc, progWord, if_pos hal]
    show Memory.readWord (Memory.writeWord s.mem (withLowBits s.pc 0b00#2).toNat _) _ = _
    rw [hw, readWord_writeWord]
  have hfetch : fetchInstr (s.withFetchWord 32 w.toNat) =
      match decodeWord w with
      | .ok i => .next i
      | .error _ => .refused (.notRSCRegister w) := by
    unfold fetchInstr
    rw [hword]
    cases h : decodeWord w <;> simp [State.withFetchWord, placeInstr, hal, h]
  unfold step
  rw [hend, hfetch]
  cases decodeWord w <;> simp

end Sys2Proof.Machine
end

