-- ==== Sys2Proof/Tests/Slice0.lean ====
section
/-! SUPPORT. The model's own tests. Expected words and values are those of 95_test_vectors (encodings E and X, vectors F,
K, Q and V, outcomes T) and of the tables of 30_encoding and 41_rsc_register; the witnesses show that the hypotheses of
the statements can be met. -/
namespace Sys2Proof.Tests
open Sys2Proof Sys2Proof.Machine

/-! Helpers -/

/-- The PSTATE of Supervisor mode with the given flags. -/
def flags (n z c v : Bool) : PState := { PState.reset with n := n, z := z, c := c, v := v }

/-- A state at `pc` with some registers of the current mode set. -/
def stateAt (pc : Word) (p : PState) (rs : List (RegNum × Word)) : State :=
  rs.foldl (fun s r => s.writeReg r.1 r.2) { State.reset with pc := pc, pstate := p }

/-- The step of the state with the word `w` at its pc. -/
def stepWord (s : State) (w : Nat) : Host.Outcome State Fault Refusal := step (s.withFetchWord 32 w)

/-- The outcome is a next state with the property. -/
def nextIs (o : Host.Outcome State Fault Refusal) (p : State → Bool) : Bool :=
  match o with
  | .next t => p t
  | .fault _ => false
  | .refused _ => false

/-- The flags of a state as `NZCV`. -/
def nzcv (s : State) : BitVec 4 := nzcvOf s.pstate.n s.pstate.z s.pstate.c s.pstate.v

/-- A state in which AL instructions run with room for the pc: Supervisor mode, C set. -/
def base : State := stateAt 0x00008000#32 (flags false false true false) [(1, 5#32), (2, 9#32)]

/-- The same in another mode. -/
def inMode (m : Mode) : State := { base with pstate := { base.pstate with m := m } }

/-! Well-formedness (30_encoding R42, R44) -/

theorem test_rsc_rrx_pattern_is_ill_formed : (Instr.rsc .al 0 1 2 .ror 0#5).wellFormed = false := by decide
theorem test_rscs_rrx_pattern_is_ill_formed : (Instr.rscs .al 0 1 2 .ror 0#5).wellFormed = false := by decide
theorem test_rsc_by_value_is_well_formed : (Instr.rsc .al 0 1 2 .ror 1#5).wellFormed = true := by decide
theorem test_deprecated_uses_are_well_formed :
    (Instr.rscs .al 15 15 15 .ror 31#5).wellFormed = true ∧
      (Instr.rscs .al 15 15 15 .ror 31#5).deprecations = [.pcDestination, .pcSource] := by decide

/-! Decoding: cond 0000 111 S Rn Rd imm5 stype 0 Rm, each word written out bit by bit (E1 to E24) -/

/-- E3: RSC R0, R1, R2, RRX. -/
theorem test_decode_rscRrx : decodeWord 0b1110_0000_1110_0001_0000_00000_11_0_0010#32 = .ok (.rscRrx .al 0 1 2) := by
  decide
/-- E5: RSC R3, R4, R5, LSL #4. -/
theorem test_decode_rsc : decodeWord 0b1110_0000_1110_0100_0011_00100_00_0_0101#32 = .ok (.rsc .al 3 4 5 .lsl 4#5) := by
  decide
/-- E17: RSCS R1, R3, R1, RRX. -/
theorem test_decode_rscsRrx : decodeWord 0b1110_0000_1111_0011_0001_00000_11_0_0001#32 = .ok (.rscsRrx .al 1 3 1) := by
  decide
/-- E10: RSCS R0, R1, R2, ASR #31. -/
theorem test_decode_rscs :
    decodeWord 0b1110_0000_1111_0001_0000_11111_10_0_0010#32 = .ok (.rscs .al 0 1 2 .asr 31#5) := by decide
/-- E22 and E23: all free fields zero, and one. -/
theorem test_decode_extremes :
    decodeWord 0x00E00000#32 = .ok (.rsc .eq 0 0 0 .lsl 0#5) ∧
      decodeWord 0xE0FFFFEF#32 = .ok (.rscs .al 15 15 15 .ror 31#5) := by decide
/-- E18 to E20, E24. -/
theorem test_decode_conditional :
    decodeWord 0x20E440C4#32 = .ok (.rsc .cs 4 4 4 .asr 1#5) ∧
      decodeWord 0xB0E983AA#32 = .ok (.rsc .lt 8 9 10 .lsr 7#5) ∧
      decodeWord 0x00FEF00E#32 = .ok (.rscs .eq 15 14 14 .lsl 0#5) := by decide
/-- X1 to X9. -/
theorem test_decode_refuses :
    decodeWord 0xF0E10002#32 = .error (.condition1111 0xF0E10002#32) ∧
      decodeWord 0xE0E10012#32 = .error (.notClassA1 0xE0E10012#32) ∧
      decodeWord 0xE2E10002#32 = .error (.notClassA1 0xE2E10002#32) ∧
      decodeWord 0xE0C10002#32 = .error (.notClassA1 0xE0C10002#32) ∧
      decodeWord 0xE0A10002#32 = .error (.notClassA1 0xE0A10002#32) ∧
      decodeWord 0xE1E10002#32 = .error (.notClassA1 0xE1E10002#32) ∧
      decodeWord 0xE8E10002#32 = .error (.notClassA1 0xE8E10002#32) ∧
      decodeWord 0x00000000#32 = .error (.notClassA1 0x00000000#32) ∧
      decodeWord 0xE7F000F0#32 = .error (.notClassA1 0xE7F000F0#32) := by decide
/-- 20_memory R33: RSC R0, R1, R2 is the byte sequence 02 00 E1 E0. -/
theorem test_decode_bytes : decode [0x02#8, 0x00#8, 0xE1#8, 0xE0#8] = .ok (.rsc .al 0 1 2 .lsl 0#5, []) := by decide
theorem test_decode_too_short : decode [0x02#8, 0x00#8, 0xE1#8] = .error (.tooShort 3) := by decide
theorem test_encode_bytes : encodeBytes (.rsc .al 0 1 2 .lsl 0#5) = [0x02#8, 0x00#8, 0xE1#8, 0xE0#8] := by decide
theorem test_table_word : decodeTableWord 32 0xE0F43025 = some (.rscs .al 3 4 5 .lsr 0#5) := by decide

/-! Assembly (E14, E18, E20, E23) -/

theorem test_text :
    (disassemble (.rsc .cs 4 4 4 .asr 1#5)).text = "RSCCS R4, R4, R4, ASR #1" ∧
      (disassemble (.rscs .al 15 15 15 .ror 31#5)).text = "RSCS PC, PC, PC, ROR #31" ∧
      (disassemble (.rscs .eq 15 14 14 .lsl 0#5)).text = "RSCSEQ PC, LR, LR" ∧
      (disassemble (.rscs .al 3 4 5 .lsr 0#5)).text = "RSCS R3, R4, R5, LSR #32" := by decide +kernel
theorem test_assemble :
    (assemble ⟨false, some .eq, none, none, 6, 7, .omitted⟩).map encode = some 0x00E66007#32 ∧
      (assemble ⟨true, none, some .wide, some 12, 11, 12, .amount .ror 8⟩).map encode = some 0xE0FBC46C#32 ∧
      assemble ⟨false, none, none, none, 0, 1, .amount .lsl 32⟩ = none ∧
      assemble ⟨false, none, some .narrow, none, 0, 1, .omitted⟩ = none := by decide

/-! Shared operations -/

/-- The table of 41_rsc_register R84. -/
theorem test_add_with_carry :
    addWithCarry (~~~0x00000001#32) 0x00000005#32 true = (0x00000004#32, 0b0010#4) ∧
      addWithCarry (~~~0x00000005#32) 0x00000005#32 false = (0xFFFFFFFF#32, 0b1000#4) ∧
      addWithCarry (~~~0x00000001#32) 0x80000000#32 true = (0x7FFFFFFF#32, 0b0011#4) ∧
      addWithCarry (~~~0x80000000#32) 0x7FFFFFFF#32 true = (0xFFFFFFFF#32, 0b1001#4) ∧
      addWithCarry (~~~0xFFFFFFFF#32) 0x00000000#32 false = (0x00000000#32, 0b0100#4) ∧
      addWithCarry (~~~0x7FFFFFFF#32) 0x80000000#32 false = (0x00000000#32, 0b0111#4) := by decide
/-- V13, V14, V16, V18 to V21. -/
theorem test_shifts :
    shift 0x00000001#32 .lsl 31 true = 0x80000000#32 ∧ shift 0xFFFFFFFF#32 .lsr 32 true = 0x00000000#32 ∧
      shift 0x80000000#32 .asr 32 true = 0xFFFFFFFF#32 ∧ shift 0xFFFFFFF0#32 .asr 4 false = 0xFFFFFFFF#32 ∧
      shift 0x12345678#32 .ror 8 true = 0x78123456#32 ∧ shift 0x80000001#32 .ror 31 true = 0x00000003#32 ∧
      shift 0x00000001#32 .rrx 1 true = 0x80000000#32 := by decide
/-- 95_test_vectors 3.3, the rows HI and LE. -/
theorem test_conditions :
    ([0b0010#4, 0b0011#4, 0b1010#4, 0b1011#4].all (fun f => conditionPassed .hi (PState.reset.withFlags f))) = true ∧
      ([0b0000#4, 0b0001#4, 0b0110#4, 0b0111#4].all (fun f => !conditionPassed .hi (PState.reset.withFlags f))) = true ∧
      ([0b0001#4, 0b0011#4, 0b0100#4, 0b1000#4, 0b1010#4, 0b1111#4].all
        (fun f => conditionPassed .le (PState.reset.withFlags f))) = true ∧
      ([0b0000#4, 0b0010#4, 0b1001#4, 0b1011#4].all
        (fun f => !conditionPassed .le (PState.reset.withFlags f))) = true := by decide
/-- 10_state R14: FIQ has its own R8 to R14, Hyp its own R13 and the User R14. -/
theorem test_banking :
    bankedReg .fiq 8 = .fiq 0 ∧ bankedReg .fiq 7 = .usr 7 ∧ bankedReg .fiq 14 = .fiq 6 ∧ bankedReg .hyp 13 = .hypSp ∧
      bankedReg .hyp 14 = .usr 14 ∧ bankedReg .supervisor 13 = .svc 0 ∧ bankedReg .irq 14 = .irq 1 ∧
      bankedReg .monitor 12 = .usr 12 ∧ bankedReg .system 13 = bankedReg .user 13 := by decide
/-- A write in Supervisor mode to R13 is not seen in User mode. -/
theorem test_banked_write :
    (base.writeReg 13 7#32).readReg 13 = 7#32 ∧
      ({ base.writeReg 13 7#32 with pstate := { base.pstate with m := .user } } : State).readReg 13 = 0#32 := by decide
/-- 60_exceptions R100. -/
theorem test_modes : ∀ m : Mode, modeOfBits (modeBits m) = some m := by intro m; cases m <;> rfl
/-- 70_reset_and_hazards R109: no promise when R15 is used. -/
theorem test_dit : ditCovers (.rsc .al 0 15 1 .lsl 0#5) { base with pstate := { base.pstate with dit := true } } = false ∧
    ditCovers (.rsc .al 0 2 1 .lsl 0#5) { base with pstate := { base.pstate with dit := true } } = true := by decide

/-! One step -/

/-- F1. -/
theorem test_step_rscRrx :
    nextIs (stepWord (stateAt 0x8000#32 (flags false false true false) [(0, 0xDEADBEEF#32), (2, 1#32)]) 0xE0E10062)
      (fun t => t.readReg 0 == 0x80000000#32 && nzcv t == 0b0010#4 && t.pc == 0x8004#32) = true := by decide
/-- V22. -/
theorem test_step_rscRrx_carry_clear :
    nextIs (stepWord (stateAt 0x8000#32 (flags false false false false) [(2, 1#32)]) 0xE0E10062)
      (fun t => t.readReg 0 == 0xFFFFFFFF#32 && nzcv t == 0b0000#4) = true := by decide
/-- F2. -/
theorem test_step_rsc :
    nextIs (stepWord (stateAt 0x8000#32 (flags false false true false) [(4, 0x10#32), (5, 0x12345678#32)]) 0xE0E43205)
      (fun t => t.readReg 3 == 0x23456770#32 && nzcv t == 0b0010#4 && t.pc == 0x8004#32) = true := by decide
/-- Q6: the carry takes part in the target, whose bit 0 selects T32. -/
theorem test_step_rsc_branch :
    nextIs (stepWord (stateAt 0x8000#32 (flags false false false false) [(1, 0x9004#32)]) 0xE0E0F001)
      (fun t => t.pc == 0x9002#32 && t.pstate.t) = true := by decide
/-- F3. -/
theorem test_step_rscsRrx :
    nextIs (stepWord (stateAt 0x8000#32 (flags false false true false) [(2, 6#32)]) 0xE0F22062)
      (fun t => t.readReg 2 == 0x7FFFFFFD#32 && nzcv t == 0b0011#4 && t.pc == 0x8004#32) = true := by decide
/-- Q9 under the option of D10, with RRX: the flags come from the SPSR, not from the subtraction. -/
theorem test_step_rscsRrx_return :
    nextIs (stepWord { base with spsr := { base.spsr with svc := 0x50000010#32 } } 0xE0FEF06E)
      (fun t => nzcv t == 0b0101#4 && t.eventRegister && t.freeCount == 1) = true := by decide
/-- F5. -/
theorem test_step_rscs :
    nextIs (stepWord (stateAt 0x8000#32 (flags false false true false) [(5, 0xFFFFFFFF#32)]) 0xE0F43025)
      (fun t => t.readReg 3 == 0#32 && nzcv t == 0b0110#4 && t.pc == 0x8004#32) = true := by decide
/-- K4: the condition fails, so no fault in User mode. -/
theorem test_step_rscs_condition_failed :
    nextIs (stepWord { inMode .user with pc := 0x8000#32 } 0x00FEF00E)
      (fun t => t.pc == 0x8004#32 && nzcv t == 0b0010#4) = true := by decide
/-- Q7. -/
theorem test_step_hyp : stepWord (inMode .hyp) 0xE0FEF00E = .fault (.undefinedInstruction 0x8000#32 .instruction) := by rfl
/-- Q1 and Q2: register 15 reads the address plus 8. -/
theorem test_step_pc_operand :
    nextIs (stepWord (stateAt 0x1000#32 (flags false false true false) [(1, 0x2000#32)]) 0xE0EF0001)
      (fun t => t.readReg 0 == 0xFF8#32 && t.pc == 0x1004#32) = true ∧
    nextIs (stepWord (stateAt 0x8000#32 (flags false false true false) [(0, 0xFFFFFFFC#32)]) 0xE0E0F00F)
      (fun t => t.pc == 0x800C#32 && !t.pstate.t) = true := by decide
/-- Q5: the fault at the branch. -/
theorem test_step_unaligned_branch :
    stepWord (stateAt 0x8000#32 (flags false false true false) [(1, 0x9002#32)]) 0xE0E0F001 =
      .fault .constrainedUnpredictableBranchToUnalignedA32 := by rfl
/-- Q8, in both modes. -/
theorem test_step_user_and_system_return :
    stepWord (inMode .user) 0xE0FEF00E = .fault .constrainedUnpredictableALUExceptionReturn ∧
      stepWord (inMode .system) 0xE0FEF00E = .fault .constrainedUnpredictableALUExceptionReturn := ⟨rfl, rfl⟩
/-- T3, at an end address that is no multiple of 4: no run ends there (70_reset_and_hazards R111). -/
theorem test_step_misaligned :
    step { base with pc := 0x00008002#32, endAddr := some 0x00008002#32 } = .fault .pcMisalignedAtFetch := rfl
/-- T4 and T5. -/
theorem test_step_wrap_and_refusal :
    stepWord { base with pc := 0xFFFFFFFC#32 } 0xE0E10002 = .fault .addressSpaceWrap ∧
      stepWord base 0xE0A10002 = .refused (.notRSCRegister 0xE0A10002#32) := ⟨rfl, rfl⟩
/-- From reset the first step finds no program. -/
theorem test_step_reset : step State.reset = .fault .noProgramWord := rfl

/-! Witnesses: the hypotheses of the statements can be met together -/

theorem witness_EncodeThenDecode : (Instr.rscs .le 15 14 0 .ror 31#5).wellFormed = true := by decide
theorem witness_DecodeThenEncode : decodeWord 0xE0E10062#32 = .ok (.rscRrx .al 0 1 2) := by decide
/-- The greatest and the least condition, and a word of each encoding. -/
theorem witness_EncodingsByMatchAndMask :
    ((0xE0E10062#32).extractLsb' 28 4 ≠ 0b1111#4 ∧ 0xE0E10062#32 &&& 0x0FF00FF0#32 = 0x00E00060#32) ∧
      ((0x00E00000#32).extractLsb' 28 4 ≠ 0b1111#4 ∧ 0x00E00000#32 &&& 0x0FF00010#32 = 0x00E00000#32 ∧
        0x00E00000#32 &&& 0x00000FE0#32 ≠ 0x00000060#32) ∧
      ((0xE0F22062#32).extractLsb' 28 4 ≠ 0b1111#4 ∧ 0xE0F22062#32 &&& 0x0FF00FF0#32 = 0x00F00060#32) ∧
      ((0xE0FFFFEF#32).extractLsb' 28 4 ≠ 0b1111#4 ∧ 0xE0FFFFEF#32 &&& 0x0FF00010#32 = 0x00F00000#32 ∧
        0xE0FFFFEF#32 &&& 0x00000FE0#32 ≠ 0x00000060#32) := by decide
theorem witness_DecodeReadsTheFields :
    0xB0E983AA#32 &&& 0x0FE00010#32 = 0x00E00000#32 ∧ (0xB0E983AA#32).extractLsb' 28 4 ≠ 0b1111#4 := by decide
theorem witness_ConditionCodeTable : decodeWord 0xB0E983AA#32 = .ok (.rsc .lt 8 9 10 .lsr 7#5) ∧
    conditionPassed (Instr.rsc .lt 8 9 10 .lsr 7#5).cond base.pstate = false := by decide
/-- Each pair at a boundary: LSL 31, LSR 32, ASR 32, ROR 31, RRX 1. -/
theorem witness_DecodedShiftsInRange :
    decodeWord 0xE0E10F82#32 = .ok (.rsc .al 0 1 2 .lsl 31#5) ∧ decodeWord 0xE0E10022#32 = .ok (.rsc .al 0 1 2 .lsr 0#5) ∧
      decodeWord 0xE0E10042#32 = .ok (.rsc .al 0 1 2 .asr 0#5) ∧
      decodeWord 0xE0E10FE2#32 = .ok (.rsc .al 0 1 2 .ror 31#5) ∧ decodeWord 0xE0E10062#32 = .ok (.rscRrx .al 0 1 2) := by
  decide
theorem witness_DecodeImmShiftTable : (1#5 : BitVec 5) ≠ 0#5 ∧ (31#5 : BitVec 5) ≠ 0#5 := by decide
/-- The bits at both sides of each clause, at amounts 1, 31 and 32. -/
theorem witness_ShiftsBitByBit :
    (1 ≤ 1 ∧ 31 < 32 ∧ 31 + 1 > 31) ∧ (1 ≤ 31 ∧ 0 < 32 ∧ 0 + 31 ≤ 31) ∧ (1 ≤ 32 ∧ 31 < 32 ∧ ¬ 32 ≤ 31) := by decide
theorem witness_RotatesBitByBit : (31 < 32 ∧ 31 = 31) ∧ (1 ≤ 31 ∧ 31 ≤ 31 ∧ 31 < 32) ∧ 1 ≤ 1 := by decide
theorem witness_RegisterReads : (15 : RegNum).val = 15 ∧ (14 : RegNum).val < 15 := by decide
theorem witness_RegisterWriteThenRead : (14 : RegNum).val ≠ 15 ∧ (15 : RegNum) ≠ 14 := by decide
/-- Serves the four result statements and `RegisterMinusItself`, at the last pc that advances. -/
theorem witness_Results :
    conditionPassed .al base.pstate = true ∧ (14 : RegNum).val ≠ 15 ∧
      CanAdvance { base with pc := 0xFFFFFFF8#32 } := by decide
theorem witness_FailedConditionOnlyAdvances :
    conditionPassed (Instr.rscs .eq 15 14 14 .lsl 0#5).cond base.pstate = false ∧ CanAdvance base := by decide
/-- Both ways of not writing the PC, at the top of the address space. -/
theorem witness_SequentialWrapFaults :
    ¬ CanAdvance { base with pc := 0xFFFFFFFC#32 } ∧
      conditionPassed (Instr.rsc .eq 15 0 1 .lsl 0#5).cond base.pstate = false ∧
      (Instr.rsc .al 14 0 1 .lsl 0#5).rd.val ≠ 15 := by decide
/-- A branch, with targets in each of the three clauses: 0x9001, 0x9000 and 0x9002. -/
theorem witness_InterworkingBranch :
    (Instr.rsc .al 15 0 1 .lsl 0#5).setflags = false ∧ (Instr.rsc .al 15 0 1 .lsl 0#5).rd.val = 15 ∧
      conditionPassed .al base.pstate = true ∧
      (reverseDiff 0#32 0x9001#32 true).toNat % 2 = 1 ∧ (reverseDiff 0#32 0x9000#32 true).toNat % 4 = 0 ∧
      (reverseDiff 0#32 0x9002#32 true).toNat % 4 = 2 := by decide
/-- Every mode that returns. -/
theorem witness_ExceptionReturnRestores :
    (Instr.rscs .al 15 14 14 .lsl 0#5).setflags = true ∧ (Instr.rscs .al 15 14 14 .lsl 0#5).rd.val = 15 ∧
      conditionPassed .al base.pstate = true ∧ ReturnsFrom base.mode ∧ ReturnsFrom (inMode .fiq).mode ∧
      ReturnsFrom (inMode .irq).mode ∧ ReturnsFrom (inMode .abort).mode ∧ ReturnsFrom (inMode .undefined).mode ∧
      ReturnsFrom (inMode .monitor).mode := by decide
/-- A saved status of zero: mode bits 00000 are reserved. -/
theorem witness_ReservedSavedModeIsIllegal :
    (Instr.rscsRrx .al 15 14 14).setflags = true ∧ (Instr.rscsRrx .al 15 14 14).rd.val = 15 ∧
      conditionPassed .al base.pstate = true ∧ ReturnsFrom base.mode ∧ base.spsr.ofMode base.mode = some 0#32 ∧
      modeOfBits ((0#32).extractLsb' 0 5) = none := by decide
/-- The state the illegal return of that witness leads to has not ended its run: it names no end address. -/
theorem witness_ReservedSavedModeIsIllegal_next : runEnded (exceptionReturn 0#32 0#32 base) = false := rfl
theorem witness_NoReturnFromHypUserOrSystem :
    (Instr.rscs .al 15 14 14 .lsl 0#5).setflags = true ∧ (Instr.rscs .al 15 14 14 .lsl 0#5).rd.val = 15 ∧
      conditionPassed .al (inMode .hyp).pstate = true ∧ (inMode .hyp).mode = .hyp ∧
      conditionPassed .al (inMode .user).pstate = true ∧ (inMode .user).mode = .user ∧
      conditionPassed .al (inMode .system).pstate = true ∧ (inMode .system).mode = .system := by decide
theorem witness_SixtyFourBitReverseSubtract :
    (4 : RegNum).val ≠ 15 ∧ (0 : RegNum).val ≠ 15 ∧ (2 : RegNum).val ≠ 15 ∧ (5 : RegNum).val ≠ 15 ∧
      (1 : RegNum).val ≠ 15 ∧ (3 : RegNum).val ≠ 15 ∧ (4 : RegNum) ≠ 1 ∧ (4 : RegNum) ≠ 3 ∧ (5 : RegNum) ≠ 4 ∧
      base.pstate.c = true ∧ base.pc.toNat + 8 < 2 ^ 32 := by decide
theorem witness_RscFrame : ∃ t, (Instr.rsc .al 0 1 2 .lsl 0#5).setflags = false ∧
    (Instr.rsc .al 0 1 2 .lsl 0#5).rd.val ≠ 15 ∧ exec (.rsc .al 0 1 2 .lsl 0#5) base = .next t :=
  ⟨_, rfl, by decide, rfl⟩
theorem witness_RscsFrame : ∃ t, (Instr.rscs .al 14 1 2 .lsl 0#5).setflags = true ∧
    (Instr.rscs .al 14 1 2 .lsl 0#5).rd.val ≠ 15 ∧ exec (.rscs .al 14 1 2 .lsl 0#5) base = .next t :=
  ⟨_, rfl, by decide, rfl⟩
theorem witness_RscBranchFrame : ∃ t, (Instr.rsc .al 15 1 2 .lsl 0#5).setflags = false ∧
    (Instr.rsc .al 15 1 2 .lsl 0#5).rd.val = 15 ∧ exec (.rsc .al 15 1 2 .lsl 0#5) base = .next t :=
  ⟨_, rfl, rfl, rfl⟩
/-- In a mode that returns, and in one that does not (the condition fails there). -/
theorem witness_RscsReturnFrame :
    (∃ t, (Instr.rscs .al 15 14 14 .lsl 0#5).setflags = true ∧ (Instr.rscs .al 15 14 14 .lsl 0#5).rd.val = 15 ∧
      exec (.rscs .al 15 14 14 .lsl 0#5) base = .next t) ∧
    (∃ t, (Instr.rscs .eq 15 14 14 .lsl 0#5).setflags = true ∧ ¬ ReturnsFrom (inMode .user).mode ∧
      exec (.rscs .eq 15 14 14 .lsl 0#5) (inMode .user) = .next t) :=
  ⟨⟨_, rfl, rfl, rfl⟩, ⟨_, rfl, by decide, rfl⟩⟩
/-- `base` with RSC R0, R1, R2 at its pc. -/
def placed : State := base.withFetchWord 32 0xE0E10002
theorem witness_StepRunsDecodedInstruction :
    runEnded placed = false ∧ placed.pstate.il = false ∧ InA32State placed ∧ PCAligned placed ∧
      Memory.read placed.mem placed.pc.toNat = some 0x02#8 ∧
      Memory.read placed.mem (placed.pc.toNat + 1) = some 0x00#8 ∧
      Memory.read placed.mem (placed.pc.toNat + 2) = some 0xE1#8 ∧
      Memory.read placed.mem (placed.pc.toNat + 3) = some 0xE0#8 ∧
      decode [0x02#8, 0x00#8, 0xE1#8, 0xE0#8] = .ok (.rsc .al 0 1 2 .lsl 0#5, []) := by decide
/-- Both ways of being no instruction. -/
theorem witness_StepRefusesOtherWords :
    let s := base.withFetchWord 32 0xE0A10002
    let u := base.withFetchWord 32 0xF0E10002
    (runEnded s = false ∧ s.pstate.il = false ∧ InA32State s ∧ progWord s.mem s.pc = some 0xE0A10002#32 ∧
      0xE0A10002#32 &&& 0x0FE00010#32 ≠ 0x00E00000#32) ∧
    (runEnded u = false ∧ u.pstate.il = false ∧ InA32State u ∧ progWord u.mem u.pc = some 0xF0E10002#32 ∧
      (0xF0E10002#32).extractLsb' 28 4 = 0b1111#4) := by decide
theorem witness_StepStopsBeforeExecution :
    let il : State := { base with pstate := { base.pstate with il := true } }
    let thumb : State := { base with pstate := { base.pstate with t := true } }
    let odd : State := { base with pc := 0x00008002#32 }
    (runEnded il = false ∧ il.pstate.il = true) ∧
    (runEnded thumb = false ∧ thumb.pstate.il = false ∧ thumb.pstate.t = true) ∧
    (runEnded odd = false ∧ odd.pstate.il = false ∧ InA32State odd ∧ ¬ PCAligned odd) ∧
    (runEnded base = false ∧ base.pstate.il = false ∧ InA32State base ∧ PCAligned base ∧
      ¬ ProgramDefinedAt base base.pc) := by decide
theorem witness_EndedRunStays :
    ({ base with endAddr := some 0x8000#32 } : State).endAddr = some base.pc ∧ PCAligned base ∧ InA32State base := by
  decide
theorem witness_ProgramWordsAreLittleEndian : progWord placed.mem placed.pc = some 0xE0E10002#32 := by decide
/-- Serves every statement whose hypothesis is a step from a state of a run. -/
theorem witness_Step : ∃ t, runEnded placed = false ∧ step placed = .next t ∧ t.pstate.t = false ∧ t.pstate.il = false :=
  ⟨_, rfl, rfl, rfl, rfl⟩
theorem witness_StepKeepsInvariant : Inv placed :=
  ⟨by decide, rfl, fun _ => rfl, fun _ _ => by decide, fun _ => by decide, fun _ h => (nomatch h), fun _ => rfl, fun _ => rfl,
    fun _ => rfl⟩
/-- Two modes with the same register view. -/
theorem witness_ModeMattersOnlyToExceptionReturn :
    ¬ ((Instr.rscs .al 14 1 2 .lsl 0#5).setflags = true ∧ (Instr.rscs .al 14 1 2 .lsl 0#5).rd.val = 15) ∧
      SameButMode (inMode .user) (inMode .fiq) :=
  ⟨by decide, ⟨by decide, rfl, fun m => by cases m <;> rfl, rfl⟩⟩
theorem witness_DisassembleThenAssemble : (Instr.rsc .al 0 1 2 .ror 1#5).wellFormed = true := by decide
/-- The greatest amounts of each shift, the omitted shift and RRX. -/
theorem witness_AssembledLineMeansItsText :
    (assemble ⟨false, none, none, none, 0, 1, .amount .lsl 31⟩).isSome ∧
      (assemble ⟨false, none, none, none, 0, 1, .amount .lsr 32⟩).isSome ∧
      (assemble ⟨true, none, none, none, 0, 1, .amount .asr 32⟩).isSome ∧
      (assemble ⟨true, none, none, none, 0, 1, .amount .ror 31⟩).isSome ∧
      (assemble ⟨true, none, none, none, 0, 1, .omitted⟩).isSome ∧
      (assemble ⟨true, none, none, none, 0, 1, .rrx⟩).isSome := by decide

end Sys2Proof.Tests
end

section
/-! SUPPORT. What the decoder reads from a word, field by field and encoding by encoding (30_encoding R38 to R46). -/
namespace Sys2Proof
open Sys2Proof.Machine

/-! Fields as match and mask -/

/-- Masking to bits that were set leaves those bits. -/
theorem or_and_cancel_right (a b : Word) : (a ||| b) &&& b = b := by
  ext i hi
  simpa using Or.inr

/-- Two match and mask tests on different bits are one test on all of those bits. -/
theorem and_or_eq_or_iff (w mask₁ mask₂ value₁ value₂ : Word) (h₁ : (value₁ ||| value₂) &&& mask₁ = value₁)
    (h₂ : (value₁ ||| value₂) &&& mask₂ = value₂) :
    w &&& (mask₁ ||| mask₂) = value₁ ||| value₂ ↔ w &&& mask₁ = value₁ ∧ w &&& mask₂ = value₂ := by
  constructor
  · intro h
    rw [← h, BitVec.and_assoc] at h₁ h₂
    rw [BitVec.or_comm, or_and_cancel_right] at h₁
    rw [or_and_cancel_right] at h₂
    exact ⟨h₁, h₂⟩
  · rintro ⟨h₁, h₂⟩
    rw [BitVec.and_or_distrib_left, h₁, h₂]

/-- A field holds a value exactly when the word masked to the field is that value at the field's place. -/
theorem extractLsb'_eq_iff_and (w : Word) (start len : Nat) (value : BitVec len) (hfit : start + len ≤ 32) :
    w.extractLsb' start len = value ↔
      w &&& (BitVec.allOnes len).setWidth 32 <<< start = value.setWidth 32 <<< start := by
  constructor
  · rintro rfl
    ext i hi
    simp only [BitVec.getElem_and, BitVec.getElem_shiftLeft, BitVec.getElem_setWidth]
    by_cases hlo : i < start
    · simp [hlo]
    · simp [hlo, Nat.add_sub_cancel' (Nat.le_of_not_lt hlo), Bool.and_comm, BitVec.getLsbD_eq_getElem hi]
  · intro h
    ext i hi
    have hbit := congrArg (·.getLsbD (start + i)) h
    simpa [hi, show start + i < 32 by omega, show i < 32 by omega, BitVec.getLsbD_eq_getElem hi] using hbit

theorem fieldS_eq_iff (w : Word) (b : BitVec 1) : fieldS w = b ↔ w &&& 0x00100000#32 = b.setWidth 32 <<< 20 :=
  extractLsb'_eq_iff_and w 20 1 b (by decide)

/-- The excluded pattern of 30_encoding R42 and R44 in the bits of a word. -/
theorem isRrxPattern_fields_iff (w : Word) :
    isRrxPattern (stypeOfBits (fieldStype w)) (fieldImm5 w) = true ↔ w &&& 0x00000FE0#32 = 0x00000060#32 := by
  have hstype : stypeOfBits (fieldStype w) = .ror ↔ fieldStype w = 0b11#2 := by
    generalize fieldStype w = b
    revert b
    decide
  rw [isRrxPattern, Bool.and_eq_true, decide_eq_true_eq, decide_eq_true_eq, hstype]
  have hfields := and_or_eq_or_iff w 0x00000060#32 0x00000F80#32 0x00000060#32 0#32 (by decide) (by decide)
  exact (and_congr (extractLsb'_eq_iff_and w 5 2 0b11#2 (by decide))
    (extractLsb'_eq_iff_and w 7 5 0#5 (by decide))).trans hfields.symm

/-- `S` is set exactly when bit 20 is (30_encoding R38). -/
theorem fieldS_eq_one_iff (w : Word) : fieldS w = 1#1 ↔ w.getLsbD 20 = true := by
  simp [fieldS, BitVec.eq_of_getLsbD_eq_iff]

/-- The match of the half of the class with this `S`: the class bits, and `S` at bit 20 (30_encoding R42). -/
def classMatch (b : BitVec 1) : Word := 0x00E00000#32 ||| b.setWidth 32 <<< 20

/-- The class bits and `S` in one match and mask (30_encoding R42). -/
theorem classBits_fieldS_iff (w : Word) (b : BitVec 1) :
    w &&& 0x0FF00010#32 = classMatch b ↔ hasClassBits w = true ∧ fieldS w = b := by
  rw [hasClassBits, beq_iff_eq, fieldS_eq_iff]
  exact and_or_eq_or_iff w 0x0FE00010#32 0x00100000#32 _ _ (by revert b; decide) (by revert b; decide)

/-- The match and mask of an RRX encoding is that of its half of the class with the RRX pattern (30_encoding R42). -/
theorem rrxRow_iff (w : Word) (b : BitVec 1) :
    w &&& 0x0FF00FF0#32 = classMatch b ||| 0x00000060#32 ↔
      w &&& 0x0FF00010#32 = classMatch b ∧ w &&& 0x00000FE0#32 = 0x00000060#32 :=
  and_or_eq_or_iff w 0x0FF00010#32 0x00000FE0#32 _ _ (by revert b; decide) (by revert b; decide)

/-! The encoding selected -/

/-- Whether an instruction is one of the two RRX encodings (30_encoding R42). -/
def Instr.isRrx : Instr → Bool
  | .rscRrx _ _ _ _ => true
  | .rsc _ _ _ _ _ _ => false
  | .rscsRrx _ _ _ _ => true
  | .rscs _ _ _ _ _ _ => false

section
variable (c : Cond) (w : Word)

@[simp] theorem selectEncoding_cond : (selectEncoding c w).cond = c := by
  simp only [selectEncoding]; split <;> split <;> rfl

@[simp] theorem selectEncoding_rd : (selectEncoding c w).rd = regOfBits (fieldRd w) := by
  simp only [selectEncoding]; split <;> split <;> rfl

@[simp] theorem selectEncoding_rn : (selectEncoding c w).rn = regOfBits (fieldRn w) := by
  simp only [selectEncoding]; split <;> split <;> rfl

@[simp] theorem selectEncoding_rm : (selectEncoding c w).rm = regOfBits (fieldRm w) := by
  simp only [selectEncoding]; split <;> split <;> rfl

@[simp] theorem selectEncoding_setflags : (selectEncoding c w).setflags = decide (fieldS w = 1#1) := by
  simp only [selectEncoding]; split <;> split <;> simp [Instr.setflags, *]

@[simp] theorem selectEncoding_isRrx :
    (selectEncoding c w).isRrx = isRrxPattern (stypeOfBits (fieldStype w)) (fieldImm5 w) := by
  simp only [selectEncoding]; split <;> split <;> simp [Instr.isRrx, *]

/-- The RRX encodings have the shift that `DecodeImmShift` reads from their fields (30_encoding R46). -/
theorem immShift_selectEncoding :
    immShift (selectEncoding c w) = decodeImmShift (stypeOfBits (fieldStype w)) (fieldImm5 w) := by
  simp only [selectEncoding]
  split
  · rename_i hrrx
    simp only [isRrxPattern, Bool.and_eq_true, decide_eq_true_eq] at hrrx
    obtain ⟨hror, hzero⟩ := hrrx
    rw [hror, hzero]
    split <;> rfl
  · split <;> rfl

end

/-- All that the decoder accepts (30_encoding R40). -/
theorem decodeWord_eq_ok_iff (w : Word) (i : Instr) :
    decodeWord w = .ok i ↔
      hasClassBits w = true ∧ ∃ c, fieldCond w = condBits c ∧ selectEncoding c w = i := by
  simp only [← condOfBits_eq_some, decodeWord]
  cases hasClassBits w <;> cases condOfBits (fieldCond w) <;> simp

/-- Fifteen values of the `cond` field are conditions (30_encoding R41). -/
theorem exists_condBits_iff (b : BitVec 4) : (∃ c, b = condBits c) ↔ b ≠ 0b1111#4 := by
  simp only [← condOfBits_eq_some, ne_eq, ← condOfBits_eq_none, ← Option.ne_none_iff_exists']

/-- The half of the class and the kind of shift of what a word decodes to (30_encoding R42, R43). -/
theorem exists_decodeWord_iff (w : Word) (b : BitVec 1) (rrx : Bool) :
    (∃ i, decodeWord w = .ok i ∧ i.setflags = decide (b = 1#1) ∧ i.isRrx = rrx) ↔
      fieldCond w ≠ 0b1111#4 ∧ w &&& 0x0FF00010#32 = classMatch b ∧
        (w &&& 0x00000FE0#32 = 0x00000060#32 ↔ rrx = true) := by
  have hS : decide (fieldS w = 1#1) = decide (b = 1#1) ↔ fieldS w = b := by
    generalize fieldS w = s
    revert s b
    decide
  rw [← exists_condBits_iff, classBits_fieldS_iff, ← isRrxPattern_fields_iff, ← Bool.eq_iff_iff]
  constructor
  · rintro ⟨i, hi, hs, hr⟩
    obtain ⟨hclass, c, hc, rfl⟩ := (decodeWord_eq_ok_iff w i).1 hi
    rw [selectEncoding_setflags, hS] at hs
    exact ⟨⟨c, hc⟩, ⟨hclass, hs⟩, selectEncoding_isRrx c w ▸ hr⟩
  · rintro ⟨⟨c, hc⟩, ⟨hclass, hs⟩, hr⟩
    refine ⟨selectEncoding c w, (decodeWord_eq_ok_iff w _).2 ⟨hclass, c, hc, rfl⟩, ?_, ?_⟩
    · rw [selectEncoding_setflags, hS, hs]
    · rw [selectEncoding_isRrx, hr]

/-! A constructor of `Instr` is told by `setflags` and `isRrx` (30_encoding R45). -/
section
variable {p : Instr → Prop}

theorem exists_rscRrx_iff :
    (∃ c d n m, p (.rscRrx c d n m)) ↔ ∃ i, p i ∧ i.setflags = false ∧ i.isRrx = true :=
  ⟨fun ⟨c, d, n, m, h⟩ => ⟨.rscRrx c d n m, h, rfl, rfl⟩, fun ⟨.rscRrx c d n m, h, _⟩ => ⟨c, d, n, m, h⟩⟩

theorem exists_rsc_iff :
    (∃ c d n m st imm5, p (.rsc c d n m st imm5)) ↔ ∃ i, p i ∧ i.setflags = false ∧ i.isRrx = false :=
  ⟨fun ⟨c, d, n, m, st, imm5, h⟩ => ⟨.rsc c d n m st imm5, h, rfl, rfl⟩,
    fun ⟨.rsc c d n m st imm5, h, _⟩ => ⟨c, d, n, m, st, imm5, h⟩⟩

theorem exists_rscsRrx_iff :
    (∃ c d n m, p (.rscsRrx c d n m)) ↔ ∃ i, p i ∧ i.setflags = true ∧ i.isRrx = true :=
  ⟨fun ⟨c, d, n, m, h⟩ => ⟨.rscsRrx c d n m, h, rfl, rfl⟩, fun ⟨.rscsRrx c d n m, h, _⟩ => ⟨c, d, n, m, h⟩⟩

theorem exists_rscs_iff :
    (∃ c d n m st imm5, p (.rscs c d n m st imm5)) ↔ ∃ i, p i ∧ i.setflags = true ∧ i.isRrx = false :=
  ⟨fun ⟨c, d, n, m, st, imm5, h⟩ => ⟨.rscs c d n m st imm5, h, rfl, rfl⟩,
    fun ⟨.rscs c d n m st imm5, h, _⟩ => ⟨c, d, n, m, st, imm5, h⟩⟩

end

/-! The immediate shift -/

/-- A nonzero `imm5` is the amount itself, of the shift that `stype` names (30_encoding R47). -/
theorem decodeImmShift_of_ne_zero (imm5 : BitVec 5) (h : imm5 ≠ 0#5) :
    decodeImmShift .lsl imm5 = (.lsl, imm5.toNat) ∧ decodeImmShift .lsr imm5 = (.lsr, imm5.toNat) ∧
      decodeImmShift .asr imm5 = (.asr, imm5.toNat) ∧ decodeImmShift .ror imm5 = (.ror, imm5.toNat) := by
  simp [decodeImmShift, h]

theorem asmShiftOf_of_ne_zero (st : SType) (imm5 : BitVec 5) (h : imm5 ≠ 0#5) :
    asmShiftOf st imm5 = .amount st imm5.toNat := if_neg h

/-! The statements of 30_encoding -/

/-- Settles O5: the decoder's tests on `S` and `imm5:stype` are the rows' tests on the bits of the word. -/
theorem encodingsByMatchAndMask : Obligations.EncodingsByMatchAndMask := by
  intro w
  rw [exists_rscRrx_iff (p := (decodeWord w = .ok ·)), exists_rsc_iff (p := (decodeWord w = .ok ·)),
    exists_rscsRrx_iff (p := (decodeWord w = .ok ·)), exists_rscs_iff (p := (decodeWord w = .ok ·))]
  have hrrx (b : BitVec 1) :
      (∃ i, decodeWord w = .ok i ∧ i.setflags = decide (b = 1#1) ∧ i.isRrx = true) ↔
        fieldCond w ≠ 0b1111#4 ∧ w &&& 0x0FF00FF0#32 = classMatch b ||| 0x00000060#32 := by
    rw [exists_decodeWord_iff, rrxRow_iff, iff_true_right rfl]
  have hshift (b : BitVec 1) :
      (∃ i, decodeWord w = .ok i ∧ i.setflags = decide (b = 1#1) ∧ i.isRrx = false) ↔
        fieldCond w ≠ 0b1111#4 ∧ w &&& 0x0FF00010#32 = classMatch b ∧ w &&& 0x00000FE0#32 ≠ 0x00000060#32 := by
    rw [exists_decodeWord_iff, iff_false_right Bool.false_ne_true]
  exact ⟨hrrx 0#1, hshift 0#1, hrrx 1#1, hshift 1#1⟩

/-- Settles O6: inside the class the encoding selected has each of its operands from its field. -/
theorem decodeReadsTheFields : Obligations.DecodeReadsTheFields := by
  intro w hclass hcond
  obtain ⟨c, hc⟩ := (exists_condBits_iff (fieldCond w)).2 hcond
  refine ⟨selectEncoding c w, (decodeWord_eq_ok_iff w _).2 ⟨beq_iff_eq.2 hclass, c, hc, rfl⟩, ?_⟩
  rw [selectEncoding_rd, selectEncoding_rn, selectEncoding_rm, selectEncoding_setflags, selectEncoding_cond,
    immShift_selectEncoding, decide_eq_true_eq, fieldS_eq_one_iff]
  exact ⟨rfl, rfl, rfl, Iff.rfl, hc.symm, rfl⟩

/-- Settles O7: the lines for `imm5 = 00000` by evaluation, those for the other amounts by the branch they take. -/
theorem decodeImmShiftTable : Obligations.DecodeImmShiftTable := by
  refine ⟨⟨rfl, rfl⟩, ⟨rfl, rfl⟩, ⟨rfl, rfl⟩, ⟨rfl, rfl⟩, fun imm5 h => ?_, rfl, rfl, rfl, rfl⟩
  obtain ⟨hlsl, hlsr, hasr, hror⟩ := decodeImmShift_of_ne_zero imm5 h
  exact ⟨hlsl, hlsr, hasr, hror, fun st => asmShiftOf_of_ne_zero st imm5 h⟩

end Sys2Proof
end

section
/-! SUPPORT. The shifts and rotates as the library's operations on words, the conditions as tests of the flags
(40_shared_operations R59, R62 to R65). -/
namespace Sys2Proof.Machine

/-! The shifts -/

section
variable (v : Word) (a : Nat) (c : Bool)

theorem lslWord_eq_shiftLeft : lslWord v a = v <<< a := by
  rw [lslWord, ← Nat.shiftLeft_eq]
  rfl

theorem lsrWord_eq_ushiftRight : lsrWord v a = v >>> a := by
  rw [lsrWord, ← Nat.shiftRight_eq_div_pow, ← BitVec.toNat_ushiftRight, BitVec.ofNat_toNat, BitVec.setWidth_eq]

theorem asrWord_eq_sshiftRight : asrWord v a = v.sshiftRight a := by
  rw [asrWord, BitVec.sshiftRight_eq, Int.shiftRight_eq_div_pow, Int.natCast_pow, Int.cast_ofNat_Int]

theorem rorWord_eq_rotateRight : rorWord v a = v.rotateRight a := by
  rw [rorWord, BitVec.rotateRight_def]
  split
  case isTrue h => simp [h]
  case isFalse => rw [lsrWord_eq_ushiftRight, lslWord_eq_shiftLeft]

/-- The carry in at bit 31, the other bits one place down (40_shared_operations R64). -/
theorem rrxWord_getLsbD (i : Nat) (hi : i < 32) :
    (rrxWord v c).getLsbD i = if i = 31 then c else v.getLsbD (i + 1) := by
  rw [rrxWord, BitVec.getLsbD_append]
  by_cases htop : i = 31
  · simp [htop]
  · simp [htop, show i < 31 by omega, Nat.add_comm]

/-! `Shift` by 0 returns the value (40_shared_operations R62), as each of these shifts does by itself. -/

@[simp] theorem shift_lsl : shift v .lsl a c = v <<< a := by
  simp only [shift, lslWord_eq_shiftLeft, ite_eq_right_iff]
  rintro rfl
  exact (BitVec.shiftLeft_zero v).symm

@[simp] theorem shift_lsr : shift v .lsr a c = v >>> a := by
  simp only [shift, lsrWord_eq_ushiftRight, ite_eq_right_iff]
  rintro rfl
  exact (BitVec.ushiftRight_zero v).symm

@[simp] theorem shift_asr : shift v .asr a c = v.sshiftRight a := by
  simp only [shift, asrWord_eq_sshiftRight, ite_eq_right_iff]
  rintro rfl
  exact BitVec.sshiftRight_zero.symm

@[simp] theorem shift_ror : shift v .ror a c = v.rotateRight a := by
  simp only [shift, rorWord_eq_rotateRight, ite_eq_right_iff]
  rintro rfl
  simp [BitVec.rotateRight_def]

@[simp] theorem shift_rrx_one : shift v .rrx 1 c = rrxWord v c := rfl

end

/-! The bits of a shifted word: past either end the fill (40_shared_operations R63), around it the cycle (R65). -/

section
variable (v : Word) (a i : Nat)

/-- LSL: zeros below bit `a`. -/
theorem shiftLeft_getLsbD (hi : i < 32) :
    (v <<< a).getLsbD i = if a ≤ i then v.getLsbD (i - a) else false := by
  rw [BitVec.getLsbD_shiftLeft]
  by_cases hfill : i < a
  · simp [hfill, Nat.not_le.2 hfill]
  · simp [hfill, hi, Nat.not_lt.1 hfill]

/-- LSR: zeros at the top. -/
theorem ushiftRight_getLsbD : (v >>> a).getLsbD i = if i + a ≤ 31 then v.getLsbD (i + a) else false := by
  rw [BitVec.getLsbD_ushiftRight, Nat.add_comm a]
  split
  case isTrue => rfl
  case isFalse hfill => exact BitVec.getLsbD_of_ge v _ (by omega)

/-- ASR: copies of bit 31 at the top. -/
theorem sshiftRight_getLsbD (hi : i < 32) :
    (v.sshiftRight a).getLsbD i = if i + a ≤ 31 then v.getLsbD (i + a) else v.getLsbD 31 := by
  rw [BitVec.getLsbD_sshiftRight, BitVec.msb_eq_getLsbD_last, Nat.add_comm a]
  simp [hi, Nat.lt_succ_iff]

/-- ROR: the bits that leave at the bottom come in at the top. -/
theorem rotateRight_getLsbD (ha : a < 32) (hi : i < 32) :
    (v.rotateRight a).getLsbD i = v.getLsbD ((i + a) % 32) := by
  rw [BitVec.getLsbD_rotateRight, Nat.mod_eq_of_lt ha]
  by_cases hwrap : i < 32 - a
  · rw [Nat.mod_eq_of_lt (by omega), Nat.add_comm i]
    simp [hwrap]
  · rw [Nat.mod_eq_sub_mod (by omega), Nat.mod_eq_of_lt (by omega), show i + a - 32 = i - (32 - a) by omega]
    simp [hwrap, hi]

end

/-- By 32 every bit of ASR is the sign (40_shared_operations R63). -/
theorem sshiftRight_32 (v : Word) : v.sshiftRight 32 = if v.getLsbD 31 then 0xFFFFFFFF#32 else 0x00000000#32 := by
  rw [BitVec.eq_of_getLsbD_eq_iff]
  intro i hi
  rw [sshiftRight_getLsbD v 32 i hi, if_neg (by omega)]
  cases v.getLsbD 31
  case false => exact (BitVec.getLsbD_zero).symm
  case true => exact (BitVec.getLsbD_allOnes.trans (decide_eq_true hi)).symm

/-- The decode calls LSR and ASR with 32 for `imm5 = 00000` and no other field (40_shared_operations R63). -/
theorem decodeImmShift_amount_eq_32_iff (imm5 : BitVec 5) :
    ((decodeImmShift .lsr imm5).2 = 32 ↔ imm5 = 0#5) ∧ ((decodeImmShift .asr imm5).2 = 32 ↔ imm5 = 0#5) := by
  by_cases h : imm5 = 0#5
  · subst h
    decide
  · obtain ⟨-, hlsr, hasr, -⟩ := decodeImmShift_of_ne_zero imm5 h
    have hlt := imm5.isLt
    rw [hlsr, hasr]
    simp only [h, iff_false]
    omega

/-! The conditions (40_shared_operations R59): each odd value of the field inverts the value before it. -/

section
variable (p : PState)

@[simp] theorem conditionPassed_eq : conditionPassed .eq p = p.z := rfl
@[simp] theorem conditionPassed_ne : conditionPassed .ne p = !p.z := rfl
@[simp] theorem conditionPassed_cs : conditionPassed .cs p = p.c := rfl
@[simp] theorem conditionPassed_cc : conditionPassed .cc p = !p.c := rfl
@[simp] theorem conditionPassed_mi : conditionPassed .mi p = p.n := rfl
@[simp] theorem conditionPassed_pl : conditionPassed .pl p = !p.n := rfl
@[simp] theorem conditionPassed_vs : conditionPassed .vs p = p.v := rfl
@[simp] theorem conditionPassed_vc : conditionPassed .vc p = !p.v := rfl
@[simp] theorem conditionPassed_hi : conditionPassed .hi p = (p.c && !p.z) := rfl
@[simp] theorem conditionPassed_ls : conditionPassed .ls p = !(p.c && !p.z) := rfl
@[simp] theorem conditionPassed_ge : conditionPassed .ge p = (p.n == p.v) := rfl
@[simp] theorem conditionPassed_lt : conditionPassed .lt p = !(p.n == p.v) := rfl
@[simp] theorem conditionPassed_gt : conditionPassed .gt p = (p.n == p.v && !p.z) := rfl
@[simp] theorem conditionPassed_le : conditionPassed .le p = !(p.n == p.v && !p.z) := rfl
@[simp] theorem conditionPassed_al : conditionPassed .al p = true := rfl

end

/-- A decoded instruction has the condition of its `cond` field. -/
theorem condBits_cond_of_decodeWord (w : Word) (i : Instr) (h : decodeWord w = .ok i) :
    condBits i.cond = w.extractLsb' 28 4 := by
  obtain ⟨-, c, hc, rfl⟩ := (decodeWord_eq_ok_iff w i).1 h
  rw [selectEncoding_cond, ← hc, fieldCond]

/-- An instruction whose condition fails only advances the pc (41_rsc_register R78). -/
theorem exec_of_condition_failed (i : Instr) (s : State) (h : conditionPassed i.cond s.pstate = false) :
    exec i s = s.advance := by
  rw [exec_eq_operation, rscOperation, h]
  exact if_neg Bool.false_ne_true

/-! The statements of 40_shared_operations -/

/-- Settles O9: each shift is the library's, whose bits and value are known; at 32 every bit is past the top. -/
theorem shiftsBitByBit : Obligations.ShiftsBitByBit := by
  refine ⟨fun v a c _ => ?_, fun imm5 => ⟨imm5.isLt, decodeImmShift_amount_eq_32_iff imm5⟩,
    by decide, by decide, by decide⟩
  simp only [shift_lsl, shift_lsr, shift_asr]
  refine ⟨fun i hi => ⟨shiftLeft_getLsbD v a i hi, ushiftRight_getLsbD v a i, sshiftRight_getLsbD v a i hi⟩,
    ?_, ?_, ?_, BitVec.ushiftRight_eq_zero le_rfl, sshiftRight_32 v⟩
  · rw [BitVec.toNat_shiftLeft, Nat.shiftLeft_eq]
  · rw [BitVec.toNat_ushiftRight, Nat.shiftRight_eq_div_pow]
  · rw [BitVec.toInt_sshiftRight, Int.shiftRight_eq_div_pow, Int.natCast_pow, Int.cast_ofNat_Int]

/-- Settles O10: ROR is the library's rotate, which joins the two shifts. -/
theorem rotatesBitByBit : Obligations.RotatesBitByBit := by
  refine ⟨rrxWord_getLsbD, fun v c a _ ha => ⟨fun i hi => ?_, ?_⟩, fun v c a => ?_,
    by decide, by decide, by decide, by decide, by decide⟩
  · rw [shift_ror]
    exact rotateRight_getLsbD v a i (by omega) hi
  · rw [shift_ror, shift_lsr, shift_lsl, BitVec.rotateRight_def, Nat.mod_eq_of_lt (by omega)]
  · rw [shift_ror, shift_ror, BitVec.rotateRight_mod_eq_rotateRight]

/-- Settles O11: the table by the test of each condition. -/
theorem conditionCodeTable : Obligations.ConditionCodeTable := by
  refine ⟨condBits_cond_of_decodeWord, exec_of_condition_failed, fun p => ?_⟩
  simp [condBits, and_comm, or_comm]

end Sys2Proof.Machine
end

section
/-! SUPPORT. What an instruction does by the outcome of its condition and by its destination (41_rsc_register R73). -/
namespace Sys2Proof.Machine

/-- An instruction whose condition passes writes back its result (41_rsc_register R73). -/
theorem exec_of_condition_passed (i : Instr) (s : State) (h : conditionPassed i.cond s.pstate = true) :
    exec i s = rscWriteBack i.setflags i.rd (rscResult i.rn i.rm (immShift i) s) s := by
  rw [exec_eq_operation, rscOperation, if_pos h]

section
variable (setflags : Bool) (rd : RegNum) (r : Word × BitVec 4) (s : State)

/-- The write of a destination other than the PC. -/
theorem rscWriteBack_of_ne_fifteen (h : rd.val ≠ 15) :
    rscWriteBack setflags rd r s =
      if setflags then ((s.writeReg rd r.1).writeFlags r.2).advance else (s.writeReg rd r.1).advance :=
  if_neg h

/-- The write of the PC: a return with the flags form, a branch without. -/
theorem rscWriteBack_fifteen (h : rd.val = 15) :
    rscWriteBack setflags rd r s = if setflags then aluExceptionReturn r.1 s else aluWritePC r.1 s :=
  if_pos h

end

/-! The statements of 41_rsc_register -/

/-- Settles O17, by whether the condition passes, whether Rd is the PC and whether the form sets the flags. -/
theorem operationOfAllEncodings : Obligations.OperationOfAllEncodings := by
  intro i s
  cases hcond : conditionPassed i.cond s.pstate
  case false => exact exec_of_condition_failed i s hcond
  case true =>
    rw [exec_of_condition_passed i s hcond, rscResult]
    by_cases hrd : i.rd.val = 15
    · rw [rscWriteBack_fifteen _ _ _ _ hrd]
      cases i.setflags <;> simp [hrd]
    · rw [rscWriteBack_of_ne_fifteen _ _ _ _ hrd]
      simp [hrd]

end Sys2Proof.Machine
end

section
/-! SUPPORT. Encoding and decoding are inverse to each other (30_encoding R38 to R43). -/
namespace Sys2Proof
open Sys2Proof.Machine

/-! From an instruction to its word and back -/

@[simp] theorem hasClassBits_encode (i : Instr) : hasClassBits (encode i) = true := by
  cases i <;> exact hasClassBits_packA1 ..

@[simp] theorem fieldCond_encode (i : Instr) : fieldCond (encode i) = condBits i.cond := by
  cases i <;> exact fieldCond_packA1 ..

/-- The RRX encodings hold the pattern, the others hold it in no well-formed instruction (30_encoding R42, R44). -/
theorem selectEncoding_encode (i : Instr) (h : i.wellFormed = true) : selectEncoding i.cond (encode i) = i := by
  have hrrx : isRrxPattern (stypeOfBits 0b11#2) 0b00000#5 = true := rfl
  cases i with
  | rscRrx c rd rn rm => simp [selectEncoding, encode, hrrx, Instr.cond]
  | rscsRrx c rd rn rm => simp [selectEncoding, encode, hrrx, Instr.cond]
  | rsc c rd rn rm st imm5 =>
    simp only [Instr.wellFormed, Bool.not_eq_true'] at h
    simp [selectEncoding, encode, h, Instr.cond]
  | rscs c rd rn rm st imm5 =>
    simp only [Instr.wellFormed, Bool.not_eq_true'] at h
    simp [selectEncoding, encode, h, Instr.cond]

theorem decodeWord_encode (i : Instr) (h : i.wellFormed = true) : decodeWord (encode i) = .ok i :=
  (decodeWord_eq_ok_iff _ i).2 ⟨hasClassBits_encode i, i.cond, fieldCond_encode i, selectEncoding_encode i h⟩

/-- The decoder takes the four bytes of one word and leaves the others (20_memory R33). -/
theorem decode_bytesOfWord_append (w : Word) (rest : List Byte) :
    decode (bytesOfWord w ++ rest) = (decodeWord w).map (·, rest) := by
  simp only [bytesOfWord, List.cons_append, List.nil_append, decode, wordOfBytes_byteOfWord]
  cases decodeWord w <;> rfl

/-! From a word to its instruction and back -/

/-- A word of the class is its fields packed (30_encoding R38, R39). -/
theorem packA1_fields (w : Word) (h : hasClassBits w = true) :
    packA1 (fieldCond w) (fieldS w) (fieldRn w) (fieldRd w) (fieldImm5 w) (fieldStype w) (fieldRm w) = w := by
  have hbits : w.extractLsb' 21 7 = 7#7 ∧ w.extractLsb' 4 1 = 0#1 := by
    rw [extractLsb'_eq_iff_and w 21 7 _ (by decide), extractLsb'_eq_iff_and w 4 1 _ (by decide)]
    exact (and_or_eq_or_iff w 0x0FE00000#32 0x00000010#32 0x00E00000#32 0#32 (by decide) (by decide)).1
      (beq_iff_eq.1 h)
  obtain ⟨hopcode, hbit4⟩ := hbits
  have hopcode := congrArg BitVec.toNat hopcode
  have hbit4 := congrArg BitVec.toNat hbit4
  have hw := w.isLt
  apply BitVec.eq_of_toNat_eq
  simp only [packA1_toNat, fieldCond, fieldS, fieldRn, fieldRd, fieldImm5, fieldStype, fieldRm,
    BitVec.extractLsb'_toNat, Nat.shiftRight_eq_div_pow, BitVec.toNat_ofNat] at hopcode hbit4 ⊢
  omega

theorem wellFormed_selectEncoding (c : Cond) (w : Word) : (selectEncoding c w).wellFormed = true := by
  simp only [selectEncoding]
  split <;> split <;> simp [Instr.wellFormed, *]

/-- The fields that the excluded pattern names (30_encoding R42). -/
theorem fields_of_isRrxPattern (w : Word) (h : isRrxPattern (stypeOfBits (fieldStype w)) (fieldImm5 w) = true) :
    fieldStype w = 0b11#2 ∧ fieldImm5 w = 0b00000#5 := by
  simp only [isRrxPattern, Bool.and_eq_true, decide_eq_true_eq] at h
  obtain ⟨hstype, himm5⟩ := h
  exact ⟨by rw [← stypeBits_stypeOfBits (fieldStype w), hstype]; rfl, himm5⟩

/-- The encoding selected keeps every field of the word. -/
theorem encode_selectEncoding (c : Cond) (w : Word) (hclass : hasClassBits w = true)
    (hc : fieldCond w = condBits c) : encode (selectEncoding c w) = w := by
  have hpack := packA1_fields w hclass
  have hS : fieldS w ≠ 1#1 → fieldS w = 0#1 := by
    generalize fieldS w = b
    revert b
    decide
  simp only [selectEncoding]
  split
  case isTrue hrrx =>
    obtain ⟨hstype, himm5⟩ := fields_of_isRrxPattern w hrrx
    rw [hc, hstype, himm5] at hpack
    split
    case isTrue h1 => rwa [h1] at hpack
    case isFalse h0 => rwa [hS h0] at hpack
  case isFalse =>
    rw [hc] at hpack
    split
    case isTrue h1 => simpa [encode, h1] using hpack
    case isFalse h0 => simpa [encode, hS h0] using hpack

/-! The statements of 30_encoding on decoding and encoding -/

/-- Settles O2: the bytes give the word back, the word its fields, and the fields the instruction. -/
theorem encodeThenDecode : Obligations.EncodeThenDecode := by
  intro i rest h
  rw [encodeBytes, decode_bytesOfWord_append, decodeWord_encode i h]
  rfl

/-- Settles O3: what decodes is an encoding selected from the fields, and those packed are the word. -/
theorem decodeThenEncode : Obligations.DecodeThenEncode := by
  intro w i h
  obtain ⟨hclass, c, hc, rfl⟩ := (decodeWord_eq_ok_iff w i).1 h
  exact ⟨wellFormed_selectEncoding c w, encode_selectEncoding c w hclass hc⟩

/-- Settles O4: within the class only the condition can be rejected. -/
theorem classA1IsWhatDecodes : Obligations.ClassA1IsWhatDecodes := by
  intro w
  have hfield : w.extractLsb' 28 4 = fieldCond w := rfl
  rw [hfield, ← exists_condBits_iff, ← beq_iff_eq (a := w &&& _)]
  constructor
  · rintro ⟨i, hi⟩
    obtain ⟨hclass, c, hc, -⟩ := (decodeWord_eq_ok_iff w i).1 hi
    exact ⟨hclass, c, hc⟩
  · rintro ⟨hclass, c, hc⟩
    exact ⟨_, (decodeWord_eq_ok_iff w _).2 ⟨hclass, c, hc, rfl⟩⟩

/-- Settles O8: the RRX encodings too have the shift of their fields, and `DecodeImmShift` answers no other pair. -/
theorem decodedShiftsInRange : Obligations.DecodedShiftsInRange := by
  intro w i h
  obtain ⟨-, c, -, rfl⟩ := (decodeWord_eq_ok_iff w i).1 h
  rw [immShift_selectEncoding]
  generalize stypeOfBits (fieldStype w) = st
  generalize fieldImm5 w = imm5
  have hlt : imm5.toNat < 2 ^ 5 := imm5.isLt
  by_cases hzero : imm5 = 0#5
  · subst hzero
    cases st <;> simp [decodeImmShift]
  · obtain ⟨hlsl, hlsr, hasr, hror⟩ := decodeImmShift_of_ne_zero imm5 hzero
    have hpos : imm5.toNat ≠ 0 := fun h0 => hzero (BitVec.eq_of_toNat_eq h0)
    cases st <;> simp only [hlsl, hlsr, hasr, hror] <;> omega

/-- Settles O1, by running the decoder on each word. -/
theorem specWordsDecode : Obligations.SpecWordsDecode := by
  unfold Obligations.SpecWordsDecode
  decide

/-- Settles O49: well-formedness looks at the shift alone. -/
theorem deprecatedUsesAreFlagged : Obligations.DeprecatedUsesAreFlagged := by
  refine ⟨fun i => ⟨?_, ?_, decodeWord_encode i⟩, fun _ _ _ _ _ _ _ _ _ => ⟨rfl, rfl, rfl, rfl⟩⟩
  · simp [Instr.deprecations, Fin.ext_iff]
  · simp [Instr.deprecations, Fin.ext_iff]

end Sys2Proof
end

section
/-! SUPPORT. The addition with carry of `NOT(a)` as a subtraction on the integers (40_shared_operations R66, R67,
41_rsc_register R83, R84). -/
namespace Sys2Proof.Machine

/-- The value of a word put together from two. -/
theorem toNat_append_eq_add {m n : Nat} (x : BitVec m) (y : BitVec n) :
    (x ++ y).toNat = x.toNat * 2 ^ n + y.toNat := by
  rw [BitVec.toNat_append, Nat.shiftLeft_eq, Nat.mul_comm, Nat.two_pow_add_eq_or_of_lt y.isLt]

section
variable (a s : Word) (c : Bool)

/-- `NOT` is `-x - 1` on the signed readings. -/
theorem toInt_not (x : Word) : (~~~x).toInt = -x.toInt - 1 := by
  have hx := x.isLt
  rw [BitVec.toInt_eq_toNat_cond, BitVec.toInt_eq_toNat_cond, BitVec.toNat_not]
  omega

/-- The unsigned sum is the exact difference plus 2^32. -/
theorem unsignedSum_not :
    (((~~~a).toNat + s.toNat + c.toNat : Nat) : Int) = exactDiff a s c + 2 ^ 32 := by
  have ha := a.isLt
  rw [BitVec.toNat_not, exactDiff]
  omega

/-- The signed sum is the exact signed difference. -/
theorem signedSum_not : (~~~a).toInt + s.toInt + (c.toNat : Int) = exactSignedDiff a s c := by
  rw [toInt_not, exactSignedDiff]
  omega

/-- The wrapped difference on the signed readings is the same. -/
theorem reverseDiff_eq_ofInt_signed : reverseDiff a s c = BitVec.ofInt 32 (exactSignedDiff a s c) := by
  apply BitVec.eq_of_toNat_eq
  rw [reverseDiff, BitVec.toNat_ofInt, BitVec.toNat_ofInt, exactDiff, exactSignedDiff, BitVec.toInt_eq_toNat_cond,
    BitVec.toInt_eq_toNat_cond]
  omega

/-- A value modulo 2^32 is itself on the signed reading exactly when it is in range. -/
theorem toInt_ofInt_eq_iff (x : Int) : (BitVec.ofInt 32 x).toInt = x ↔ -2 ^ 31 ≤ x ∧ x ≤ 2 ^ 31 - 1 := by
  rw [BitVec.toInt_ofInt, Int.bmod_eq_iff (by decide), sub_self, and_iff_left (dvd_zero _)]
  omega

@[simp] theorem addWithCarry_not_result : (addWithCarry (~~~a) s c).1 = reverseDiff a s c := by
  rw [addWithCarry, reverseDiff, ← BitVec.ofInt_natCast, unsignedSum_not]
  apply BitVec.eq_of_toInt_eq
  rw [BitVec.toInt_ofInt, BitVec.toInt_ofInt]
  exact Int.add_bmod_right _ _

@[simp] theorem addWithCarry_not_n : (addWithCarry (~~~a) s c).2.getLsbD 3 = (reverseDiff a s c).msb := by
  rw [← addWithCarry_not_result]
  exact nzcvOf_bit3 ..

@[simp] theorem addWithCarry_not_z :
    (addWithCarry (~~~a) s c).2.getLsbD 2 = decide (reverseDiff a s c = 0#32) := by
  rw [← addWithCarry_not_result]
  exact nzcvOf_bit2 ..

/-- C: no borrow. -/
theorem addWithCarry_not_c : (addWithCarry (~~~a) s c).2.getLsbD 1 = true ↔ 0 ≤ exactDiff a s c := by
  have hsum := unsignedSum_not a s c
  simp only [addWithCarry, nzcvOf_bit1, bne_iff_ne, BitVec.toNat_ofNat]
  omega

/-- V: the signed difference is out of range. -/
theorem addWithCarry_not_v : (addWithCarry (~~~a) s c).2.getLsbD 0 = true ↔
    (exactSignedDiff a s c < -2 ^ 31 ∨ 2 ^ 31 - 1 < exactSignedDiff a s c) := by
  have hbit : (addWithCarry (~~~a) s c).2.getLsbD 0 =
      ((addWithCarry (~~~a) s c).1.toInt != (~~~a).toInt + s.toInt + (c.toNat : Int)) := nzcvOf_bit0 ..
  rw [hbit, addWithCarry_not_result, signedSum_not, reverseDiff_eq_ofInt_signed, bne_iff_ne, ne_eq,
    toInt_ofInt_eq_iff]
  omega

end

/-- The flags that the RSCS encodings write (41_rsc_register R84). -/
theorem withFlags_addWithCarry_not (p : PState) (a s : Word) :
    p.withFlags (addWithCarry (~~~a) s p.c).2 = p.withDiffFlags a s := by
  have hc : (addWithCarry (~~~a) s p.c).2.getLsbD 1 = decide (a.toNat + (1 - p.c.toNat) ≤ s.toNat) := by
    rw [Bool.eq_iff_iff, addWithCarry_not_c, decide_eq_true_eq, exactDiff]
    have hle := p.c.toNat_le
    omega
  have hv := addWithCarry_not_v a s p.c
  rw [← decide_eq_true_iff (p := _ ∨ _), ← Bool.eq_iff_iff] at hv
  rw [PState.withFlags, addWithCarry_not_n, addWithCarry_not_z, hc, hv, PState.withDiffFlags]

/-- Settles O12: the sums that `AddWithCarry` computes are the exact differences, the unsigned one plus 2^32. -/
theorem addWithCarryIsReverseSubtraction : Obligations.AddWithCarryIsReverseSubtraction := by
  intro a s c r
  have hcarry := addWithCarry_not_c a s c
  refine ⟨addWithCarry_not_result a s c, hcarry, ?_, addWithCarry_not_v a s c, ?_, ?_⟩
  · rw [← Bool.not_eq_true, hcarry, exactDiff]
    omega
  · rw [addWithCarry_not_n, addWithCarry_not_result, BitVec.msb_eq_getLsbD_last]
  · rw [addWithCarry_not_z, addWithCarry_not_result, decide_eq_true_eq]

end Sys2Proof.Machine
end

section
/-! SUPPORT. Registers and their banks, the mode bits and the CPSR (10_state R13, R14, R21; 40_shared_operations R60,
R61; 60_exceptions R100). -/
namespace Sys2Proof.Machine

/-! Reads after writes -/

theorem val_lt_of_ne_fifteen {n : RegNum} (h : n.val ≠ 15) : n.val < 15 := by omega

/-- A register other than the PC is read from the registers by the mode, and from nothing else. -/
theorem readReg_congr {s t : State} {n : RegNum} (hn : n.val ≠ 15) (hregs : t.regs = s.regs)
    (hmode : t.mode = s.mode) : t.readReg n = s.readReg n := by
  have hlt := val_lt_of_ne_fifteen hn
  rw [readReg_of_lt t n hlt, readReg_of_lt s n hlt, hregs, hmode]

/-- Settles O14: within a mode other register numbers name other copies, and the PC is none of them. -/
theorem registerWriteThenRead : Obligations.RegisterWriteThenRead := by
  intro s n n' v hn
  have hlt := val_lt_of_ne_fifteen hn
  by_cases hn' : n'.val = 15
  · have hne : n' ≠ n := fun h => hn (h ▸ hn')
    rw [if_neg hne, readReg_fifteen _ n' hn', readReg_fifteen _ n' hn', writeReg_pc]
  · have hlt' := val_lt_of_ne_fifteen hn'
    rw [readReg_of_lt _ n' hlt', readReg_of_lt _ n' hlt', writeReg_regs s n hlt, writeReg_mode]
    split
    case isTrue heq =>
      subst heq
      exact get_set_same ..
    case isFalse hne =>
      refine get_set_ne _ _ _ _ fun hbank => hne (Fin.ext ?_)
      exact Fin.mk.inj_iff.1 (bankedReg_injective _ _ _ hbank)

/-- A register write leaves every physical register alone but the copy that the mode names. -/
theorem writeReg_get_of_ne (s : State) (n : RegNum) (v : Word) (p : PhysReg)
    (hp : ∀ h : n.val < 15, p ≠ bankedReg s.mode ⟨n.val, h⟩) : (s.writeReg n v).regs.get p = s.regs.get p := by
  by_cases hlt : n.val < 15
  · rw [writeReg_regs s n hlt]
    exact get_set_ne _ _ _ _ (hp hlt)
  · rw [State.writeReg, dif_neg hlt]

/-- Settles O13. -/
theorem registerReads : Obligations.RegisterReads := by
  intro s n
  refine ⟨fun hn => ?_, fun hlt => readReg_of_lt s n hlt⟩
  rw [readReg_fifteen s n hn, BitVec.toNat_add]
  rfl

/-! Banks -/

/-- The mode that has the physical register to itself; the User bank belongs to none. -/
def PhysReg.owner : PhysReg → Option Mode
  | .usr _ => none
  | .fiq _ => some .fiq
  | .irq _ => some .irq
  | .svc _ => some .supervisor
  | .mon _ => some .monitor
  | .abt _ => some .abort
  | .und _ => some .undefined
  | .hypSp => some .hyp

/-- The register number that the physical register is a copy of. -/
def PhysReg.number : PhysReg → Nat
  | .usr i => i.val
  | .fiq i => i.val + 8
  | .irq i => i.val + 13
  | .svc i => i.val + 13
  | .mon i => i.val + 13
  | .abt i => i.val + 13
  | .und i => i.val + 13
  | .hypSp => 13

/-- Whether a mode has its own copy of a register (10_state R14). -/
def ownsCopy (m : Mode) (n : Fin 15) : Bool :=
  match m with
  | .user | .system => false
  | .fiq => decide (8 ≤ n.val)
  | .hyp => decide (n.val = 13)
  | .irq | .supervisor | .monitor | .abort | .undefined => decide (13 ≤ n.val)

theorem owner_bankedReg (m : Mode) (n : Fin 15) :
    (bankedReg m n).owner = if ownsCopy m n then some m else none := by
  cases m <;> simp only [bankedReg, ownsCopy] <;> (repeat' split) <;> simp [PhysReg.owner, *]

theorem number_bankedReg (m : Mode) (n : Fin 15) : (bankedReg m n).number = n.val := by
  cases m <;> simp only [bankedReg] <;> (repeat' split) <;> simp only [PhysReg.number] <;> omega

theorem bankedReg_of_not_owns (m : Mode) (n : Fin 15) (h : ownsCopy m n = false) : bankedReg m n = .usr n := by
  cases m <;> simp_all [bankedReg, ownsCopy]

/-- Settles O15: a physical register tells its number and the mode that owns it. -/
theorem bankedCopiesByMode : Obligations.BankedCopiesByMode := by
  suffices h : ∀ m₁ m₂ n₁ n₂, bankedReg m₁ n₁ = bankedReg m₂ n₂ ↔
      (n₁ = n₂ ∧ (m₁ = m₂ ∨ (ownsCopy m₁ n₁ = false ∧ ownsCopy m₂ n₂ = false))) from h
  intro m₁ m₂ n₁ n₂
  constructor
  · intro h
    have hnumber := congrArg PhysReg.number h
    have howner := congrArg PhysReg.owner h
    rw [number_bankedReg, number_bankedReg] at hnumber
    rw [owner_bankedReg, owner_bankedReg] at howner
    refine ⟨Fin.ext hnumber, ?_⟩
    cases h₁ : ownsCopy m₁ n₁ <;> cases h₂ : ownsCopy m₂ n₂ <;> simp_all
  · rintro ⟨rfl, rfl | ⟨h₁, h₂⟩⟩
    · rfl
    · rw [bankedReg_of_not_owns _ _ h₁, bankedReg_of_not_owns _ _ h₂]

/-! Mode bits -/

@[simp] theorem modeOfBits_modeBits (m : Mode) : modeOfBits (modeBits m) = some m := by cases m <;> rfl

/-- A mode is read from exactly one value of the mode bits (60_exceptions R100). -/
theorem modeOfBits_eq_some (b : BitVec 5) (m : Mode) : modeOfBits b = some m ↔ b = modeBits m := by
  revert b; cases m <;> decide

/-! The CPSR -/

section
variable (p : PState)

/-- The single bits of the view (10_state R21, entry 21). -/
theorem cpsr_bits :
    p.cpsr[31] = p.n ∧ p.cpsr[30] = p.z ∧ p.cpsr[29] = p.c ∧ p.cpsr[28] = p.v ∧ p.cpsr[27] = p.q ∧
      p.cpsr[23] = p.ssbs ∧ p.cpsr[22] = p.pan ∧ p.cpsr[21] = p.dit ∧ p.cpsr[20] = false ∧ p.cpsr[9] = p.e ∧
      p.cpsr[8] = p.a ∧ p.cpsr[7] = p.i ∧ p.cpsr[6] = p.f ∧ p.cpsr[5] = false := by
  simp only [← BitVec.getLsbD_eq_getElem, PState.cpsr, BitVec.getLsbD_append]
  simp

@[simp] theorem cpsr_it10 : p.cpsr.extractLsb' 24 3 = 0#3 := by
  ext i hi
  simp only [PState.cpsr, BitVec.getElem_extractLsb', BitVec.getLsbD_append]
  interval_cases i <;> simp

@[simp] theorem cpsr_ge : p.cpsr.extractLsb' 16 4 = p.ge := by
  ext i hi
  simp only [PState.cpsr, BitVec.getElem_extractLsb', BitVec.getLsbD_append]
  interval_cases i <;> simp

@[simp] theorem cpsr_it72 : p.cpsr.extractLsb' 10 6 = 0#6 := by
  ext i hi
  simp only [PState.cpsr, BitVec.getElem_extractLsb', BitVec.getLsbD_append]
  interval_cases i <;> simp

@[simp] theorem cpsr_m : p.cpsr.extractLsb' 0 5 = modeBits p.m := by
  ext i hi
  simp only [PState.cpsr, BitVec.getElem_extractLsb', BitVec.getLsbD_append]
  interval_cases i <;> simp

end

/-- Settles O16: the view field by field, and the return reads the same fields. -/
theorem cpsrLayout : Obligations.CpsrLayout := by
  intro p q k
  constructor
  · simp [cpsr_bits p]
  · simp [PState.restored, cpsr_bits p]

end Sys2Proof.Machine
end

section
/-! SUPPORT. What an instruction whose Rd is not the PC answers (41_rsc_register R74 to R78, R83, R84; 10_state R16). -/
namespace Sys2Proof.Machine

/-! Advancing the pc -/

theorem advance_of_canAdvance (s : State) (h : CanAdvance s) : s.advance = .next { s with pc := s.pc + 4#32 } :=
  if_pos h

theorem advance_of_not_canAdvance (s : State) (h : ¬ CanAdvance s) : s.advance = .fault .addressSpaceWrap :=
  if_neg h

/-! The result -/

/-- The second operand of an instruction, shifted (41_rsc_register R73). -/
def shiftedOperand (i : Instr) (s : State) : Word :=
  shift (s.readReg i.rm) (immShift i).1 (immShift i).2 s.pstate.c

/-- The result of an instruction as the rules write it (41_rsc_register R83). -/
def resultOf (i : Instr) (s : State) : Word := reverseDiff (s.readReg i.rn) (shiftedOperand i s) s.pstate.c

@[simp] theorem rscResult_result (i : Instr) (s : State) : (rscResult i.rn i.rm (immShift i) s).1 = resultOf i s :=
  addWithCarry_not_result ..

@[simp] theorem withFlags_rscResult (i : Instr) (s : State) :
    s.pstate.withFlags (rscResult i.rn i.rm (immShift i) s).2 =
      s.pstate.withDiffFlags (s.readReg i.rn) (shiftedOperand i s) := withFlags_addWithCarry_not ..

section
variable (i : Instr) (s : State) (hcond : conditionPassed i.cond s.pstate = true) (hrd : i.rd.val ≠ 15)
include hcond hrd

/-- RSC writes Rd and advances (41_rsc_register R74, R75). -/
theorem exec_rsc_eq (hset : i.setflags = false) :
    exec i s = (s.writeReg i.rd (resultOf i s)).advance := by
  rw [exec_of_condition_passed i s hcond, rscWriteBack_of_ne_fifteen _ _ _ _ hrd, hset, rscResult_result]
  exact if_neg Bool.false_ne_true

/-- RSCS writes Rd and the flags and advances (41_rsc_register R76, R77). -/
theorem exec_rscs_eq (hset : i.setflags = true) :
    exec i s = ((s.writeReg i.rd (resultOf i s)).writeFlags (rscResult i.rn i.rm (immShift i) s).2).advance := by
  rw [exec_of_condition_passed i s hcond, rscWriteBack_of_ne_fifteen _ _ _ _ hrd, hset, rscResult_result]
  exact if_pos rfl

theorem exec_rsc_of_canAdvance (hset : i.setflags = false) (hadv : CanAdvance s) :
    exec i s = .next { s.writeReg i.rd (resultOf i s) with pc := s.pc + 4#32 } := by
  rw [exec_rsc_eq i s hcond hrd hset, advance_of_canAdvance _ (by rwa [CanAdvance, writeReg_pc]), writeReg_pc]

theorem exec_rscs_of_canAdvance (hset : i.setflags = true) (hadv : CanAdvance s) :
    exec i s = .next { s.writeReg i.rd (resultOf i s) with
      pc := s.pc + 4#32, pstate := s.pstate.withDiffFlags (s.readReg i.rn) (shiftedOperand i s) } := by
  rw [exec_rscs_eq i s hcond hrd hset,
    advance_of_canAdvance _ (by rwa [CanAdvance, writeFlags_pc, writeReg_pc]), writeFlags_pc, writeReg_pc,
    State.writeFlags, writeReg_pstate, withFlags_rscResult]

end

/-- `C * 2^31 + floor(x / 2)` (40_shared_operations R64). -/
theorem rrxWord_toNat (v : Word) (c : Bool) : (rrxWord v c).toNat = c.toNat * 2 ^ 31 + v.toNat / 2 := by
  have hv := v.isLt
  rw [rrxWord, toNat_append_eq_add, BitVec.extractLsb'_toNat, Nat.shiftRight_eq_div_pow, BitVec.toNat_ofBool]
  omega

theorem rrxWord_eq_ofNat (v : Word) (c : Bool) :
    rrxWord v c = BitVec.ofNat 32 (c.toNat * 2 ^ 31 + v.toNat / 2) := by
  rw [← rrxWord_toNat, BitVec.ofNat_toNat, BitVec.setWidth_eq]

/-- A word less itself is 0 with the carry set and -1 with it clear. -/
theorem reverseDiff_self (x : Word) (c : Bool) :
    reverseDiff x x c = if c then 0x00000000#32 else 0xFFFFFFFF#32 := by
  rw [reverseDiff, exactDiff, sub_self]
  cases c <;> rfl

/-- The flags of a word less itself (41_rsc_register section 6). -/
theorem withDiffFlags_self (p : PState) (x : Word) :
    p.withDiffFlags x x = { p with n := !p.c, z := p.c, c := p.c, v := false } := by
  rw [PState.withDiffFlags, reverseDiff_self, exactSignedDiff, sub_self]
  have hmsb : (0xFFFFFFFF#32).msb = true := rfl
  cases p.c <;> simp [hmsb]

/-! The statements on the results -/

/-- Settles O19. -/
theorem rscShiftResult : Obligations.RscShiftResult := fun cond rd rn rm st imm5 s hcond hrd hadv =>
  exec_rsc_of_canAdvance (.rsc cond rd rn rm st imm5) s hcond hrd rfl hadv

/-- Settles O18: RRX puts the carry above the other bits. -/
theorem rscRrxResult : Obligations.RscRrxResult := by
  intro cond rd rn rm s hcond hrd hadv c value
  have hvalue : resultOf (.rscRrx cond rd rn rm) s = value := by
    have hshifted : shiftedOperand (.rscRrx cond rd rn rm) s = rrxWord (s.readReg rm) s.pstate.c := rfl
    rw [resultOf, hshifted, reverseDiff, exactDiff, rrxWord_toNat]
    push_cast
    rfl
  rw [← hvalue]
  exact exec_rsc_of_canAdvance (.rscRrx cond rd rn rm) s hcond hrd rfl hadv

/-- Settles O21. -/
theorem rscsShiftResultAndFlags : Obligations.RscsShiftResultAndFlags := fun cond rd rn rm st imm5 s hcond hrd hadv =>
  exec_rscs_of_canAdvance (.rscs cond rd rn rm st imm5) s hcond hrd rfl hadv

/-- Settles O20: RRX puts the carry above the other bits. -/
theorem rscsRrxResultAndFlags : Obligations.RscsRrxResultAndFlags := by
  intro cond rd rn rm s hcond hrd hadv a shifted
  have hshifted : shiftedOperand (.rscsRrx cond rd rn rm) s = shifted :=
    rrxWord_eq_ofNat (s.readReg rm) s.pstate.c
  rw [← hshifted]
  exact exec_rscs_of_canAdvance (.rscsRrx cond rd rn rm) s hcond hrd rfl hadv

/-- Settles O22. -/
theorem failedConditionOnlyAdvances : Obligations.FailedConditionOnlyAdvances := by
  intro i s hcond hadv
  rw [exec_of_condition_failed i s hcond, advance_of_canAdvance s hadv]

/-- Settles O23: what precedes the advance leaves the pc alone. -/
theorem sequentialWrapFaults : Obligations.SequentialWrapFaults := by
  intro i s hadv h
  cases hcond : conditionPassed i.cond s.pstate
  case false => rw [exec_of_condition_failed i s hcond, advance_of_not_canAdvance s hadv]
  case true =>
    have hrd : i.rd.val ≠ 15 := h.resolve_left (by simp [hcond])
    cases hset : i.setflags
    case false =>
      rw [exec_rsc_eq i s hcond hrd hset, advance_of_not_canAdvance _ (by rwa [CanAdvance, writeReg_pc])]
    case true =>
      rw [exec_rscs_eq i s hcond hrd hset,
        advance_of_not_canAdvance _ (by rwa [CanAdvance, writeFlags_pc, writeReg_pc])]

/-- Settles O24: an operand that is not shifted is the register itself. -/
theorem registerMinusItself : Obligations.RegisterMinusItself := by
  intro cond rd rx s hcond hrd hadv value
  have hshift : shift (s.readReg rx) (decodeImmShift .lsl 0#5).1 (decodeImmShift .lsl 0#5).2 s.pstate.c =
      s.readReg rx := rfl
  have hvalue : reverseDiff (s.readReg rx) (s.readReg rx) s.pstate.c = value := reverseDiff_self ..
  constructor
  · rw [rscShiftResult cond rd rx rx .lsl 0#5 s hcond hrd hadv, hshift, ← hvalue]
    rfl
  · rw [rscsShiftResultAndFlags cond rd rx rx .lsl 0#5 s hcond hrd hadv, hshift, hvalue, withDiffFlags_self]

/-! Two instructions -/

/-- The words of a 64-bit value one by one: the borrow of the low word is the carry of the high one. -/
theorem reverseDiff_append (nh nl mh ml : Word) (c : Bool) (hc : c = decide (nl.toNat ≤ ml.toNat)) :
    reverseDiff nh mh c ++ reverseDiff nl ml true = (mh ++ ml) - (nh ++ nl) := by
  subst hc
  apply BitVec.eq_of_toNat_eq
  have h1 := nh.isLt
  have h2 := nl.isLt
  have h3 := mh.isLt
  have h4 := ml.isLt
  rw [BitVec.toNat_sub, toNat_append_eq_add, toNat_append_eq_add, toNat_append_eq_add, reverseDiff, reverseDiff,
    exactDiff, exactDiff, BitVec.toNat_ofInt, BitVec.toNat_ofInt]
  by_cases h : nl.toNat ≤ ml.toNat
  · simp only [h, decide_true, Bool.toNat_true]
    omega
  · simp only [h, decide_false, Bool.toNat_true, Bool.toNat_false]
    omega

/-- What another register than the PC reads after an instruction that wrote `d`. -/
theorem readReg_of_regs_eq_writeReg {s t : State} {d n : RegNum} {v : Word} (hd : d.val ≠ 15) (hn : n.val ≠ 15)
    (hregs : t.regs = (s.writeReg d v).regs) (hmode : t.mode = s.mode) :
    t.readReg n = if n = d then v else s.readReg n := by
  rw [readReg_congr hn hregs (hmode.trans (writeReg_mode s d v).symm), registerWriteThenRead s d n v hd]

section
variable (s : State) {d : RegNum} (n m : RegNum) (hd : d.val ≠ 15) (hadv : CanAdvance s)
include hd hadv

/-- What RSC of unshifted registers leaves in the registers for the instruction after it. -/
theorem exists_exec_rsc_unshifted :
    ∃ t, exec (.rsc .al d n m .lsl 0#5) s = .next t ∧ ∀ r : RegNum, r.val ≠ 15 →
      t.readReg r = if r = d then reverseDiff (s.readReg n) (s.readReg m) s.pstate.c else s.readReg r :=
  ⟨_, rscShiftResult .al d n m .lsl 0#5 s (conditionPassed_al _) hd hadv,
    fun _ hr => readReg_of_regs_eq_writeReg hd hr rfl (writeReg_mode ..)⟩

/-- RSCS leaves the same, and the borrow in the carry. -/
theorem exists_exec_rscs_unshifted :
    ∃ t, exec (.rscs .al d n m .lsl 0#5) s = .next t ∧ t.pc = s.pc + 4#32 ∧
      t.pstate.c = decide ((s.readReg n).toNat + (1 - s.pstate.c.toNat) ≤ (s.readReg m).toNat) ∧
      ∀ r : RegNum, r.val ≠ 15 →
        t.readReg r = if r = d then reverseDiff (s.readReg n) (s.readReg m) s.pstate.c else s.readReg r :=
  ⟨_, rscsShiftResultAndFlags .al d n m .lsl 0#5 s (conditionPassed_al _) hd hadv, rfl, rfl,
    fun _ hr => readReg_of_regs_eq_writeReg hd hr rfl rfl⟩

end

/-- Settles O29: the high operands survive the first instruction, the low word the second, and the borrow passes in
the carry. -/
theorem sixtyFourBitReverseSubtract : Obligations.SixtyFourBitReverseSubtract := by
  intro s dl nl ml dh nh mh hdl _ _ hdh hnh hmh hdlnh hdlmh hdhdl hc hpc
  obtain ⟨t, hlow, htpc, htc, htreg⟩ := exists_exec_rscs_unshifted s nl ml hdl (by omega)
  have hadv : CanAdvance t := by
    rw [CanAdvance, htpc, BitVec.toNat_add, BitVec.toNat_ofNat]
    omega
  obtain ⟨u, hhigh, hureg⟩ := exists_exec_rsc_unshifted t nh mh hdh hadv
  refine ⟨t, u, hlow, hhigh, ?_⟩
  rw [hureg dh hdh, hureg dl hdl, if_pos rfl, if_neg hdhdl.symm, htreg dl hdl, if_pos rfl, htreg nh hnh,
    if_neg hdlnh.symm, htreg mh hmh, if_neg hdlmh.symm, htc, hc]
  exact reverseDiff_append _ _ _ _ _ rfl

end Sys2Proof.Machine
end

section
/-! SUPPORT. What an instruction whose Rd is the PC answers: the interworking branch and the exception return
(40_shared_operations R70 to R72; 60_exceptions R96, R97). -/
namespace Sys2Proof.Machine

section
variable (i : Instr) (s : State) (hcond : conditionPassed i.cond s.pstate = true) (hrd : i.rd.val = 15)
include hcond hrd

/-- RSC to the PC branches to its result. -/
theorem exec_branch_eq (hset : i.setflags = false) : exec i s = aluWritePC (resultOf i s) s := by
  rw [exec_of_condition_passed i s hcond, rscWriteBack_fifteen _ _ _ _ hrd, hset, rscResult_result]
  exact if_neg Bool.false_ne_true

/-- RSCS to the PC returns to its result. -/
theorem exec_return_eq (hset : i.setflags = true) : exec i s = aluExceptionReturn (resultOf i s) s := by
  rw [exec_of_condition_passed i s hcond, rscWriteBack_fifteen _ _ _ _ hrd, hset, rscResult_result]
  exact if_pos rfl

end

/-! The interworking branch -/

theorem getLsbD_zero_eq_decide (a : Word) : a.getLsbD 0 = decide (a.toNat % 2 = 1) :=
  Nat.testBit_zero a.toNat

theorem getLsbD_one_eq_decide (a : Word) : a.getLsbD 1 = decide (a.toNat / 2 % 2 = 1) := by
  rw [BitVec.getLsbD, Nat.testBit_succ, Nat.testBit_zero]

theorem clearBit0_of_odd (a : Word) (h : a.toNat % 2 = 1) : clearBit0 a = a - 1#32 := by
  have ha := a.isLt
  apply BitVec.eq_of_toNat_eq
  rw [clearBit0_toNat, BitVec.toNat_sub, BitVec.toNat_ofNat]
  omega

/-- Settles O25: the two low bits of the target are its remainder by 4. -/
theorem interworkingBranch : Obligations.InterworkingBranch := by
  intro i s hset hrd hcond shifted target
  have hexec : exec i s = aluWritePC target s := exec_branch_eq i s hcond hrd hset
  rw [hexec, aluWritePC, getLsbD_zero_eq_decide, getLsbD_one_eq_decide]
  refine ⟨fun hodd => ?_, fun haligned => ?_, fun htwo => ?_⟩
  · simp [hodd, clearBit0_of_odd, State.branchTo]
  · have h0 : target.toNat % 2 = 0 := by omega
    have h1 : target.toNat / 2 % 2 = 0 := by omega
    simp [h0, h1, State.branchTo]
  · have h0 : target.toNat % 2 = 0 := by omega
    have h1 : target.toNat / 2 % 2 = 1 := by omega
    simp [h0, h1]

/-! The modes that return -/

/-- The modes that return have a saved status. -/
theorem exists_spsr_of_returnsFrom (f : SpsrFile) (m : Mode) (h : ReturnsFrom m) : ∃ spsr, f.ofMode m = some spsr := by
  obtain ⟨huser, hsystem, -⟩ := h
  cases m
  case user => exact absurd rfl huser
  case system => exact absurd rfl hsystem
  all_goals exact ⟨_, rfl⟩

/-- A mode other than Hyp that has a saved status returns. -/
theorem returnsFrom_of_spsr (f : SpsrFile) (m : Mode) (spsr : Word) (hspsr : f.ofMode m = some spsr)
    (hhyp : m ≠ .hyp) : ReturnsFrom m := by
  refine ⟨?_, ?_, hhyp⟩ <;> rintro rfl <;> cases hspsr

theorem aluExceptionReturn_of_returnsFrom (address spsr : Word) (s : State) (h : ReturnsFrom s.mode)
    (hspsr : s.spsr.ofMode s.mode = some spsr) :
    aluExceptionReturn address s = .next (exceptionReturn address spsr s) := by
  obtain ⟨huser, hsystem, hhyp⟩ := h
  rcases aluExceptionReturn_cases address s with ⟨hm, -⟩ | ⟨hm | hm, -⟩ | ⟨spsr', hspsr', -, hnext⟩
  · exact absurd hm hhyp
  · exact absurd hm huser
  · exact absurd hm hsystem
  · cases hspsr.symm.trans hspsr'
    exact hnext

/-! What a return restores -/

section
variable (p : PState) (spsr : Word) (k : Nat)

/-- Mode bits that name no mode make a return illegal (60_exceptions R97 (a)). -/
theorem illegalReturn_of_reserved (m : Mode) (h : modeOfBits (spsr.extractLsb' 0 5) = none) :
    illegalReturn spsr m = true := by
  simp [illegalReturn, implementedModeOfBits, h]

/-- An illegal return sets IL and keeps the mode. -/
theorem restored_of_illegal (h : illegalReturn spsr p.m = true) :
    (p.restored spsr k).il = true ∧ (p.restored spsr k).m = p.m := by
  simp [PState.restored, h]

/-- The mode bits of a legal return name a mode. -/
theorem exists_modeOfBits_of_legal (m : Mode) (h : illegalReturn spsr m = false) :
    ∃ m', modeOfBits (spsr.extractLsb' 0 5) = some m' := by
  rw [← Option.ne_none_iff_exists']
  intro hnone
  rw [illegalReturn_of_reserved spsr m hnone] at h
  exact Bool.noConfusion h

/-- A legal return loads IL, the mode and SSBS from the saved status. -/
theorem restored_of_legal (h : illegalReturn spsr p.m = false) :
    (p.restored spsr k).il = spsr.getLsbD 20 ∧ modeBits (p.restored spsr k).m = spsr.extractLsb' 0 5 ∧
      (Config.haveSSBS = true → (p.restored spsr k).ssbs = spsr.getLsbD 23) := by
  obtain ⟨m, hm⟩ := exists_modeOfBits_of_legal spsr p.m h
  refine ⟨?_, ?_, fun hssbs => ?_⟩
  · simp [PState.restored, h]
  · simp [PState.restored, h, (modeOfBits_eq_some _ m).1 hm]
  · simp [PState.restored, h, hssbs]

/-- T comes from the saved status; with IL set it may be 0 instead (60_exceptions R96). -/
theorem restored_t :
    ((p.restored spsr k).il = false → (p.restored spsr k).t = spsr.getLsbD 5) ∧
      ((p.restored spsr k).il = true → (p.restored spsr k).t = spsr.getLsbD 5 ∨ (p.restored spsr k).t = false) := by
  simp only [PState.restored]
  constructor <;> intro hil <;> rw [hil]
  · exact if_neg Bool.false_ne_true
  · rw [if_pos rfl]
    cases Config.illegalStateKeepsT k <;> simp

/-- The bits of absent features are left alone (entry 8). -/
theorem restored_of_absent :
    (Config.haveDIT = false → (p.restored spsr k).dit = p.dit) ∧
      (Config.haveSSBS = false → (p.restored spsr k).ssbs = p.ssbs) ∧
      (Config.havePAN = false → (p.restored spsr k).pan = p.pan) := by
  refine ⟨fun h => ?_, fun h => ?_, fun h => ?_⟩ <;> simp [PState.restored, h]

theorem restored_it_of_t (h : (p.restored spsr k).t = true) :
    (p.restored spsr k).it = spsr.extractLsb' 10 6 ++ spsr.extractLsb' 25 2 := by
  simp only [PState.restored] at h ⊢
  exact if_pos h

end

/-! Where a return continues -/

section
variable (a : Word) (p : PState) (k : Nat)

theorem returnTarget_toNat_of_t32 (hil : p.il = false) (ht : p.t = true) :
    (returnTarget a p k).toNat = a.toNat / 2 * 2 := by
  simp [returnTarget, hil, ht, clearBit0_toNat]

theorem returnTarget_toNat_of_a32 (hil : p.il = false) (ht : p.t = false) :
    (returnTarget a p k).toNat = a.toNat / 4 * 4 := by
  simp [returnTarget, hil, ht, withLowBits_toNat]

theorem returnTarget_toNat_div_of_il (hil : p.il = true) : (returnTarget a p k).toNat / 4 = a.toNat / 4 := by
  have hlow := (Config.freePCBits k).isLt
  rw [returnTarget, hil, if_pos rfl, withLowBits_toNat]
  omega

end

/-! The statements on the exception return -/

/-- Settles O26: field by field from what a return restores and where it continues. -/
theorem exceptionReturnRestores : Obligations.ExceptionReturnRestores := by
  intro i s hset hrd hcond hret shifted target
  obtain ⟨spsr, hspsr⟩ := exists_spsr_of_returnsFrom s.spsr s.mode hret
  have hexec : exec i s = .next (exceptionReturn target spsr s) := by
    rw [exec_return_eq i s hcond hrd hset]
    exact aluExceptionReturn_of_returnsFrom target spsr s hret hspsr
  obtain ⟨ht, htIL⟩ := restored_t s.pstate spsr s.freeCount
  obtain ⟨-, hssbs, -⟩ := restored_of_absent s.pstate spsr s.freeCount
  exact ⟨spsr, _, hspsr, hexec, restored_of_illegal s.pstate spsr s.freeCount,
    restored_of_legal s.pstate spsr s.freeCount, hssbs, rfl, rfl, rfl, rfl, rfl, rfl, rfl, rfl, rfl, rfl,
    rfl, rfl, ht, htIL, restored_it_of_t s.pstate spsr s.freeCount, restored_it s.pstate spsr s.freeCount,
    returnTarget_toNat_of_t32 _ _ _, returnTarget_toNat_of_a32 _ _ _, returnTarget_toNat_div_of_il _ _ _, rfl, rfl⟩

/-- Settles O28: Hyp, User and System are the modes whose check answers a fault. -/
theorem noReturnFromHypUserOrSystem : Obligations.NoReturnFromHypUserOrSystem := by
  intro i s hset hrd hcond
  rw [exec_return_eq i s hcond hrd hset]
  refine ⟨fun hhyp => ?_, fun huser => ?_⟩
  · rw [aluExceptionReturn, hhyp, raiseUndefined]
  · rcases huser with hm | hm <;> rw [aluExceptionReturn, hm]

end Sys2Proof.Machine
end

section
/-! SUPPORT. Program words, the fetch case by case, and what stops a step (20_memory R29 to R33; 30_encoding R50;
60_exceptions R92; 70_reset_and_hazards R111). -/
namespace Sys2Proof.Machine

/-! Program words -/

/-- Each byte of a word put together from four is the byte it was put together from. -/
theorem byteOfWord_wordOfBytes (b0 b1 b2 b3 : Byte) :
    byteOfWord (wordOfBytes b0 b1 b2 b3) 0 = b0 ∧ byteOfWord (wordOfBytes b0 b1 b2 b3) 1 = b1 ∧
      byteOfWord (wordOfBytes b0 b1 b2 b3) 2 = b2 ∧ byteOfWord (wordOfBytes b0 b1 b2 b3) 3 = b3 := by
  have hword : (wordOfBytes b0 b1 b2 b3).toNat =
      b3.toNat * 2 ^ 24 + b2.toNat * 2 ^ 16 + b1.toNat * 2 ^ 8 + b0.toNat := by
    simp only [wordOfBytes, toNat_append_eq_add]
    omega
  refine ⟨?_, ?_, ?_, ?_⟩ <;> apply BitVec.eq_of_toNat_eq <;>
    rw [byteOfWord, BitVec.extractLsb'_toNat, Nat.shiftRight_eq_div_pow, hword] <;> omega

/-- A word is read exactly where its four bytes are (20_memory R33). -/
theorem readWord_eq_some_iff (m : Memory) (a : Nat) (w : Word) :
    Memory.readWord m a = some w ↔
      Memory.read m a = some (byteOfWord w 0) ∧ Memory.read m (a + 1) = some (byteOfWord w 1) ∧
        Memory.read m (a + 2) = some (byteOfWord w 2) ∧ Memory.read m (a + 3) = some (byteOfWord w 3) := by
  constructor
  · intro h
    unfold Memory.readWord at h
    split at h
    case h_1 b0 b1 b2 b3 h0 h1 h2 h3 =>
      obtain rfl := Option.some.inj h
      obtain ⟨e0, e1, e2, e3⟩ := byteOfWord_wordOfBytes b0 b1 b2 b3
      rw [e0, e1, e2, e3]
      exact ⟨h0, h1, h2, h3⟩
    case h_2 => cases h
  · rintro ⟨h0, h1, h2, h3⟩
    simp [Memory.readWord, h0, h1, h2, h3, wordOfBytes_byteOfWord]

/-- Settles O38. -/
theorem programWordsAreLittleEndian : Obligations.ProgramWordsAreLittleEndian := by
  intro m addr w
  rw [progWord, Option.ite_none_right_eq_some, readWord_eq_some_iff]
  rfl

/-! The fetch, its checks in order (entry 12) -/

section
variable {s : State}

theorem fetchInstr_of_il (hil : s.pstate.il = true) : fetchInstr s = .fault (raiseUndefined .illegalState s) :=
  if_pos hil

theorem fetchInstr_of_t32 (hil : s.pstate.il = false) (ht : s.pstate.t = true) :
    fetchInstr s = .refused .leftA32State := by
  simp [fetchInstr, hil, ht]

theorem fetchInstr_of_misaligned (hil : s.pstate.il = false) (ht : InA32State s) (hpc : ¬ PCAligned s) :
    fetchInstr s = .fault .pcMisalignedAtFetch := by
  simp [fetchInstr, hil, ht, hpc]

theorem fetchInstr_of_no_word (hil : s.pstate.il = false) (ht : InA32State s) (hpc : PCAligned s)
    (hword : progWord s.mem s.pc = none) : fetchInstr s = .fault .noProgramWord := by
  simp [fetchInstr, hil, ht, hpc, hword]

variable {w : Word} (hil : s.pstate.il = false) (ht : InA32State s) (hword : progWord s.mem s.pc = some w)
include hil ht hword

theorem fetchInstr_of_decodes {i : Instr} (hdecode : decodeWord w = .ok i) : fetchInstr s = .next i := by
  obtain ⟨hpc, -⟩ := (programWordsAreLittleEndian ..).1 hword
  simp [fetchInstr, hil, ht, hpc, hword, hdecode]

theorem fetchInstr_of_not_decodes {e : DecodeError} (hdecode : decodeWord w = .error e) :
    fetchInstr s = .refused (.notRSCRegister w) := by
  obtain ⟨hpc, -⟩ := (programWordsAreLittleEndian ..).1 hword
  simp [fetchInstr, hil, ht, hpc, hword, hdecode]

end

/-! The step of a run that has not ended is what the fetch answers -/

section
variable {s : State} (hrun : runEnded s = false)
include hrun

theorem step_of_fetch_next {i : Instr} (h : fetchInstr s = .next i) : step s = exec i s := by simp [step, hrun, h]

theorem step_of_fetch_fault {r : Fault} (h : fetchInstr s = .fault r) : step s = .fault r := by simp [step, hrun, h]

theorem step_of_fetch_refused {r : Refusal} (h : fetchInstr s = .refused r) : step s = .refused r := by
  simp [step, hrun, h]

end

/-! The statements on the step -/

/-- Settles O34: the four bytes are a program word, and the fetch decodes it. -/
theorem stepRunsDecodedInstruction : Obligations.StepRunsDecodedInstruction := by
  intro s b0 b1 b2 b3 i hrun hil ht hpc h0 h1 h2 h3 hdecode
  have hword : progWord s.mem s.pc = some (wordOfBytes b0 b1 b2 b3) := by
    rw [progWord, if_pos hpc]
    simp [Memory.readWord, h0, h1, h2, h3]
  refine step_of_fetch_next hrun (fetchInstr_of_decodes hil ht hword ?_)
  rw [decode] at hdecode
  split at hdecode
  case h_1 hok =>
    cases hdecode
    exact hok
  case h_2 => cases hdecode

/-- Settles O35: outside the class the decoder answers an error. -/
theorem stepRefusesOtherWords : Obligations.StepRefusesOtherWords := by
  intro s w hrun hil ht hword hout
  cases hdecode : decodeWord w with
  | error e => exact step_of_fetch_refused hrun (fetchInstr_of_not_decodes hil ht hword hdecode)
  | ok i =>
    obtain ⟨hclass, hcond⟩ := (classA1IsWhatDecodes w).1 ⟨i, hdecode⟩
    exact absurd hout (by simp [hclass, hcond])

/-- Settles O36: each stop is a check of the fetch. -/
theorem stepStopsBeforeExecution : Obligations.StepStopsBeforeExecution := by
  intro s hrun
  refine ⟨fun hil => step_of_fetch_fault hrun (fetchInstr_of_il hil),
    fun hil ht => step_of_fetch_refused hrun (fetchInstr_of_t32 hil ht),
    fun hil ht hpc => step_of_fetch_fault hrun (fetchInstr_of_misaligned hil ht hpc),
    fun hil ht hpc hword => step_of_fetch_fault hrun (fetchInstr_of_no_word hil ht hpc (not_not.1 hword))⟩

/-- Settles O37. -/
theorem endedRunStays : Obligations.EndedRunStays := by
  intro s hend hpc ht
  have hended : runEnded s = true := by simp [runEnded, hend, hpc, ht]
  rw [step, if_pos hended]

/-- Settles O27: the illegal return completes, and the state it leads to stops the next step. -/
theorem reservedSavedModeIsIllegal : Obligations.ReservedSavedModeIsIllegal := by
  intro i s spsr hset hrd hcond hret hspsr hreserved
  have hillegal := illegalReturn_of_reserved spsr s.mode hreserved
  obtain ⟨hil, hmode⟩ := restored_of_illegal s.pstate spsr s.freeCount hillegal
  refine ⟨exceptionReturn (resultOf i s) spsr s, ?_, hil, hmode,
    fun hrun => step_of_fetch_fault hrun (fetchInstr_of_il hil)⟩
  rw [exec_return_eq i s hcond hrd hset]
  exact aluExceptionReturn_of_returnsFrom _ spsr s hret hspsr

/-! After reset -/

/-- Settles O39. -/
theorem resetState : Obligations.ResetState := by
  have hregs (p : PhysReg) : State.reset.regs.get p = 0#32 := by
    cases p <;> simp [State.reset, RegFile.reset, RegFile.get]
  have hspsr (m : Mode) (w : Word) (h : State.reset.spsr.ofMode m = some w) : w = 0#32 := by
    cases m <;> cases h <;> rfl
  exact ⟨rfl, rfl, rfl, rfl, rfl, rfl, rfl, rfl, rfl, rfl, rfl, rfl, rfl, rfl, rfl, rfl, rfl, rfl, rfl, hregs, hspsr,
    rfl, rfl, rfl, fun _ => rfl⟩

/-- Settles O40: every clause holds by the value of its field after reset. -/
theorem resetMeetsInvariant : Obligations.ResetMeetsInvariant where
  memCanonical := reset_mem_wf
  modeExists := rfl
  itZeroInA32 _ := rfl
  pcAligned _ _ := rfl
  pcEven _ := rfl
  endAligned _ h := nomatch h
  ditAbsent _ := rfl
  ssbsAbsent _ := rfl
  panAbsent _ := rfl

end Sys2Proof.Machine
end

section
/-! SUPPORT. What an instruction and a step can change: the frames, the invariant, and what depends on the mode
(41_rsc_register section 6; 60_exceptions R93, R96, R101). -/
namespace Sys2Proof.Machine

/-! Frames -/

/-- An instruction whose condition fails changes the pc alone. -/
theorem eq_of_exec_of_condition_failed (i : Instr) (s t : State) (hcond : conditionPassed i.cond s.pstate = false)
    (h : exec i s = .next t) : t = { s with pc := s.pc + 4#32 } := by
  rw [exec_of_condition_failed i s hcond] at h
  obtain ⟨-, heq⟩ := advance_next _ _ h
  exact heq

/-- Settles O30: a failed condition writes nothing, and a passed one writes one register. -/
theorem rscFrame : Obligations.RscFrame := by
  intro i s t hset hrd h
  cases hcond : conditionPassed i.cond s.pstate
  case false =>
    obtain rfl := eq_of_exec_of_condition_failed i s t hcond h
    exact ⟨fun _ _ => rfl, rfl, rfl, rfl, rfl, rfl, rfl, fun _ => rfl⟩
  case true =>
    rw [exec_rsc_eq i s hcond hrd hset] at h
    obtain ⟨-, rfl⟩ := advance_next _ _ h
    refine ⟨fun p hp => writeReg_get_of_ne s i.rd _ p hp, ?_⟩
    simp

/-- Settles O31: likewise, with the flags. -/
theorem rscsFrame : Obligations.RscsFrame := by
  intro i s t hset hrd h
  cases hcond : conditionPassed i.cond s.pstate
  case false =>
    obtain rfl := eq_of_exec_of_condition_failed i s t hcond h
    exact ⟨fun _ _ => rfl, rfl, rfl, rfl, rfl, rfl, rfl, fun _ => rfl⟩
  case true =>
    rw [exec_rscs_eq i s hcond hrd hset] at h
    obtain ⟨-, rfl⟩ := advance_next _ _ h
    refine ⟨fun p hp => writeReg_get_of_ne s i.rd _ p hp, ?_⟩
    simp [PState.withFlags]

/-- A next state of ALUWritePC is a branch, to an even address in T32 state and to a multiple of 4 in A32 state. -/
theorem aluWritePC_next (address : Word) (s t : State) (h : aluWritePC address s = .next t) :
    ∃ target thumb, t = s.branchTo target thumb ∧ target.toNat % 2 = 0 ∧ (thumb = false → target.toNat % 4 = 0) := by
  rcases aluWritePC_cases address s with ⟨-, e⟩ | ⟨-, -, e⟩ | ⟨h0, h1, e⟩ <;> rw [e] at h <;> cases h
  · refine ⟨_, _, rfl, ?_, Bool.noConfusion⟩
    rw [clearBit0_toNat]
    exact Nat.mul_mod_left _ 2
  · rw [getLsbD_zero_eq_decide, decide_eq_false_iff_not] at h0
    rw [getLsbD_one_eq_decide, decide_eq_false_iff_not] at h1
    exact ⟨_, _, rfl, by omega, fun _ => by omega⟩

/-- Settles O32: a branch replaces the pc and T. -/
theorem rscBranchFrame : Obligations.RscBranchFrame := by
  intro i s t hset hrd h
  cases hcond : conditionPassed i.cond s.pstate
  case false =>
    obtain rfl := eq_of_exec_of_condition_failed i s t hcond h
    exact ⟨fun _ => rfl, rfl, rfl, rfl, rfl, rfl, rfl, fun _ => rfl⟩
  case true =>
    rw [exec_branch_eq i s hcond hrd hset] at h
    obtain ⟨_, _, rfl, -⟩ := aluWritePC_next _ _ _ h
    exact ⟨fun _ => rfl, rfl, rfl, rfl, rfl, rfl, rfl, fun _ => rfl⟩

/-- Settles O33: in a mode that does not return only a failed condition answers a next state. -/
theorem rscsReturnFrame : Obligations.RscsReturnFrame := by
  intro i s t hset hrd h
  cases hcond : conditionPassed i.cond s.pstate
  case false =>
    obtain rfl := eq_of_exec_of_condition_failed i s t hcond h
    exact ⟨fun _ => rfl, rfl, rfl, fun _ => rfl, fun _ => ⟨rfl, rfl, rfl, rfl⟩⟩
  case true =>
    rw [exec_return_eq i s hcond hrd hset] at h
    obtain ⟨spsr, hspsr, hhyp, rfl⟩ := aluExceptionReturn_next _ _ _ h
    exact ⟨fun _ => rfl, rfl, rfl, fun _ => rfl,
      fun hret => absurd (returnsFrom_of_spsr _ _ _ hspsr hhyp) hret⟩

/-! The three ways an instruction can change the state -/

/-- What is left behind by an instruction that answers a next state: registers and flags written and the pc advanced,
an interworking branch, or an exception return. -/
inductive ExecEffect (i : Instr) (s : State) : State → Prop where
  | sequential (regs : RegFile) (nzcv : BitVec 4) (hadv : CanAdvance s) :
      ExecEffect i s { s with regs := regs, pc := s.pc + 4#32, pstate := s.pstate.withFlags nzcv }
  | branch (target : Word) (thumb : Bool) (heven : target.toNat % 2 = 0)
      (haligned : thumb = false → target.toNat % 4 = 0) : ExecEffect i s (s.branchTo target thumb)
  | exceptionReturn (address spsr : Word) (hset : i.setflags = true) (hrd : i.rd.val = 15)
      (hcond : conditionPassed i.cond s.pstate = true) (hret : ReturnsFrom s.mode)
      (hspsr : s.spsr.ofMode s.mode = some spsr) : ExecEffect i s (exceptionReturn address spsr s)

theorem withFlags_self (p : PState) : p.withFlags (nzcvOf p.n p.z p.c p.v) = p := by
  simp only [PState.withFlags, nzcvOf_bit3, nzcvOf_bit2, nzcvOf_bit1, nzcvOf_bit0]

theorem writeReg_eq (s : State) (n : RegNum) (v : Word) :
    s.writeReg n v = { s with regs := (s.writeReg n v).regs } := by
  unfold State.writeReg
  split <;> rfl

/-- Advancing after writes of registers and flags is the sequential effect. -/
theorem execEffect_of_advance (i : Instr) (s t : State) (regs : RegFile) (nzcv : BitVec 4)
    (h : ({ s with regs := regs, pstate := s.pstate.withFlags nzcv } : State).advance = .next t) :
    ExecEffect i s t := by
  obtain ⟨hadv, rfl⟩ := advance_next _ _ h
  exact .sequential regs nzcv hadv

/-- An instruction that answers a next state has one of the three effects. -/
theorem execEffect_of_exec (i : Instr) (s t : State) (h : exec i s = .next t) : ExecEffect i s t := by
  rcases exec_next_cases i s t h with ⟨-, h⟩ | ⟨-, -, h⟩ | ⟨-, -, h⟩ | ⟨-, -, h⟩ | ⟨hrd, hset, hcond, h⟩
  · refine execEffect_of_advance i s t s.regs (nzcvOf s.pstate.n s.pstate.z s.pstate.c s.pstate.v) ?_
    rwa [withFlags_self]
  · rw [writeReg_eq] at h
    refine execEffect_of_advance i s t (s.writeReg i.rd (rscResult i.rn i.rm (immShift i) s).1).regs
      (nzcvOf s.pstate.n s.pstate.z s.pstate.c s.pstate.v) ?_
    rwa [withFlags_self]
  · rw [writeReg_eq] at h
    exact execEffect_of_advance i s t _ _ h
  · obtain ⟨target, thumb, rfl, heven, haligned⟩ := aluWritePC_next _ _ _ h
    exact .branch target thumb heven haligned
  · obtain ⟨spsr, hspsr, hhyp, rfl⟩ := aluExceptionReturn_next _ _ _ h
    exact .exceptionReturn _ spsr hset hrd hcond (returnsFrom_of_spsr _ _ _ hspsr hhyp) hspsr

/-- A step to a next state leaves an ended run alone, or has the effect of the instruction fetched. -/
theorem step_effect (s t : State) (h : step s = .next t) :
    (runEnded s = true ∧ t = s) ∨ ∃ i, fetchInstr s = .next i ∧ ExecEffect i s t := by
  rcases step_next_cases s t h with hended | ⟨-, i, hfetch, hexec⟩
  · exact .inl hended
  · exact .inr ⟨i, hfetch, execEffect_of_exec i s t hexec⟩

/-! What no step changes -/

/-- Settles O43. -/
theorem stepLeavesProgramAndSavedStatus : Obligations.StepLeavesProgramAndSavedStatus := by
  intro s t h
  rcases step_effect s t h with ⟨-, rfl⟩ | ⟨i, -, heffect⟩
  · exact ⟨rfl, rfl, rfl⟩
  · cases heffect <;> exact ⟨rfl, rfl, rfl⟩

/-- Settles O44: a return changes the mode only when it is legal. -/
theorem modeChangesOnlyByExceptionReturn : Obligations.ModeChangesOnlyByExceptionReturn := by
  intro s t h
  rcases step_effect s t h with ⟨-, rfl⟩ | ⟨i, hfetch, heffect⟩
  · exact .inl rfl
  cases heffect with
  | sequential => exact .inl rfl
  | branch => exact .inl rfl
  | exceptionReturn address spsr hset hrd hcond hret hspsr =>
    cases hlegal : illegalReturn spsr s.mode
    case true =>
      obtain ⟨-, hmode⟩ := restored_of_illegal s.pstate spsr s.freeCount hlegal
      exact .inl hmode
    case false =>
      obtain ⟨-, hmode, -⟩ := restored_of_legal s.pstate spsr s.freeCount hlegal
      exact .inr ⟨i, spsr, hfetch, hset, hrd, hcond, hret, hspsr, hlegal, hmode⟩

/-- Settles O45: a return loads the masks from the saved status. -/
theorem masksChangeOnlyByExceptionReturn : Obligations.MasksChangeOnlyByExceptionReturn := by
  intro s t h
  rcases step_effect s t h with ⟨-, rfl⟩ | ⟨i, hfetch, heffect⟩
  · exact .inl ⟨rfl, rfl, rfl⟩
  cases heffect with
  | sequential => exact .inl ⟨rfl, rfl, rfl⟩
  | branch => exact .inl ⟨rfl, rfl, rfl⟩
  | exceptionReturn address spsr hset hrd hcond hret hspsr =>
    exact .inr ⟨i, spsr, hfetch, hset, hrd, hcond, hret, hspsr, rfl, rfl, rfl⟩

/-! The invariant -/

/-- Advancing keeps the remainder by 4. -/
theorem add_four_toNat_mod_four (a : Word) : (a + 4#32).toNat % 4 = a.toNat % 4 := by
  rw [BitVec.toNat_add, BitVec.toNat_ofNat]
  omega

theorem pcAligned_of_runEnded (s : State) (h : runEnded s = true) : PCAligned s := by
  rw [runEnded, Bool.and_eq_true, decide_eq_true_eq] at h
  obtain ⟨⟨-, haligned⟩, -⟩ := h
  exact haligned

/-- Settles O42: the fetch is from a multiple of 4, and each effect keeps or restores that. -/
theorem a32PcStaysAligned : Obligations.A32PcStaysAligned := by
  intro s t h ht hil
  rcases step_effect s t h with ⟨hended, rfl⟩ | ⟨i, hfetch, heffect⟩
  · exact pcAligned_of_runEnded _ hended
  obtain ⟨-, -, hpc, -⟩ := fetchInstr_next s i hfetch
  cases heffect with
  | sequential => exact (add_four_toNat_mod_four s.pc).trans hpc
  | branch target thumb heven haligned => exact haligned ht
  | exceptionReturn address spsr =>
    refine (congrArg (· % 4) (returnTarget_toNat_of_a32 address _ s.freeCount hil ht)).trans ?_
    exact Nat.mul_mod_left _ 4

/-- Without IL a return continues at an even address. -/
theorem returnTarget_even (a : Word) (p : PState) (k : Nat) (hil : p.il = false) :
    (returnTarget a p k).toNat % 2 = 0 := by
  cases ht : p.t
  case false =>
    rw [returnTarget_toNat_of_a32 a p k hil ht]
    omega
  case true =>
    rw [returnTarget_toNat_of_t32 a p k hil ht]
    omega

/-- Settles O41: what O42 and O43 say, and for the rest what a return restores. -/
theorem stepKeepsInvariant : Obligations.StepKeepsInvariant := by
  intro s t hinv h
  obtain ⟨hmem, hend, -⟩ := stepLeavesProgramAndSavedStatus s t h
  have haligned := a32PcStaysAligned s t h
  rcases step_effect s t h with ⟨-, rfl⟩ | ⟨i, hfetch, heffect⟩
  · exact hinv
  obtain ⟨-, hA32, -, -⟩ := fetchInstr_next s i hfetch
  have hmemt : Memory.wf t.mem = true := hmem ▸ hinv.memCanonical
  have hendt : EndAligned t := fun a ha => hinv.endAligned a (hend ▸ ha)
  cases heffect with
  | sequential =>
    refine ⟨hmemt, hinv.modeExists, hinv.itZeroInA32, fun hil ht => haligned ht hil, fun hil => ?_, hendt,
      hinv.ditAbsent, hinv.ssbsAbsent, hinv.panAbsent⟩
    have heven := hinv.pcEven hil
    have hfour := add_four_toNat_mod_four s.pc
    show (s.pc + 4#32).toNat % 2 = 0
    omega
  | branch target thumb heven =>
    exact ⟨hmemt, hinv.modeExists, fun _ => hinv.itZeroInA32 hA32, fun hil ht => haligned ht hil, fun _ => heven, hendt,
      hinv.ditAbsent, hinv.ssbsAbsent, hinv.panAbsent⟩
  | exceptionReturn address spsr =>
    obtain ⟨hdit, hssbs, hpan⟩ := restored_of_absent s.pstate spsr s.freeCount
    exact ⟨hmemt, restored_mode_implemented s.pstate spsr s.freeCount hinv.modeExists,
      restored_it s.pstate spsr s.freeCount, fun hil ht => haligned ht hil, returnTarget_even _ _ _, hendt,
      fun h => (hdit h).trans (hinv.ditAbsent h), fun h => (hssbs h).trans (hinv.ssbsAbsent h),
      fun h => (hpan h).trans (hinv.panAbsent h)⟩

/-! What depends on the mode -/

namespace SameButMode
variable {s₁ s₂ : State} (h : SameButMode s₁ s₂)
include h

/-- Register 15 agrees where the pc does, the others where neither side has changed registers or mode. -/
theorem of_regs_eq {t₁ t₂ : State} (hregs₁ : t₁.regs = s₁.regs) (hmode₁ : t₁.mode = s₁.mode)
    (hregs₂ : t₂.regs = s₂.regs) (hmode₂ : t₂.mode = s₂.mode) (hpc : t₁.pc = t₂.pc)
    (hpstate : ∀ m : Mode, { t₁.pstate with m := m } = { t₂.pstate with m := m })
    (hfree : t₁.freeCount = t₂.freeCount) : SameButMode t₁ t₂ where
  view r := by
    by_cases hr : r.val = 15
    · rw [readReg_fifteen t₁ r hr, readReg_fifteen t₂ r hr, hpc]
    · rw [readReg_congr hr hregs₁ hmode₁, readReg_congr hr hregs₂ hmode₂, h.view r]
  pc := hpc
  pstate := hpstate
  freeCount := hfree

theorem conditionPassed_eq (c : Cond) : conditionPassed c s₁.pstate = conditionPassed c s₂.pstate := by
  have hp := congrArg (conditionPassed c) (h.pstate .user)
  exact hp

theorem carry_eq : s₁.pstate.c = s₂.pstate.c := by
  have hp := congrArg PState.c (h.pstate .user)
  exact hp

theorem rscResult_eq (rn rm : RegNum) (sh : SRType × Nat) : rscResult rn rm sh s₁ = rscResult rn rm sh s₂ := by
  rw [rscResult, rscResult, h.view rn, h.view rm, h.carry_eq]

theorem writeReg {d : RegNum} (hd : d.val ≠ 15) (v : Word) : SameButMode (s₁.writeReg d v) (s₂.writeReg d v) := by
  refine ⟨fun r => ?_, ?_, fun m => ?_, ?_⟩
  · rw [registerWriteThenRead s₁ d r v hd, registerWriteThenRead s₂ d r v hd, h.view r]
  · rw [writeReg_pc, writeReg_pc, h.pc]
  · rw [writeReg_pstate, writeReg_pstate, h.pstate m]
  · rw [writeReg_freeCount, writeReg_freeCount, h.freeCount]

theorem writeFlags (nzcv : BitVec 4) : SameButMode (s₁.writeFlags nzcv) (s₂.writeFlags nzcv) :=
  ⟨h.view, h.pc, fun m => congrArg (PState.withFlags · nzcv) (h.pstate m), h.freeCount⟩

theorem branchTo (target : Word) (thumb : Bool) : SameButMode (s₁.branchTo target thumb) (s₂.branchTo target thumb) :=
  h.of_regs_eq rfl rfl rfl rfl rfl (fun m => congrArg (fun p : PState => { p with t := thumb }) (h.pstate m))
    h.freeCount

theorem advance_agree : OutcomesAgree s₁.advance s₂.advance := by
  rw [State.advance, State.advance, h.pc]
  split
  · exact h.of_regs_eq rfl rfl rfl rfl rfl h.pstate h.freeCount
  · rfl

theorem aluWritePC_agree (address : Word) : OutcomesAgree (aluWritePC address s₁) (aluWritePC address s₂) := by
  unfold aluWritePC
  split
  · exact h.branchTo ..
  · split
    · rfl
    · exact h.branchTo ..

end SameButMode

/-- Settles O46: every operation but the return keeps the agreement. -/
theorem modeMattersOnlyToExceptionReturn : Obligations.ModeMattersOnlyToExceptionReturn := by
  intro i s₁ s₂ hnot h
  rw [exec_eq_operation, exec_eq_operation, rscOperation, rscOperation, h.conditionPassed_eq, h.rscResult_eq]
  split
  case isFalse => exact h.advance_agree
  case isTrue =>
    by_cases hrd : i.rd.val = 15
    · have hset : i.setflags = false := Bool.eq_false_iff.2 fun hset => hnot ⟨hset, hrd⟩
      rw [rscWriteBack_fifteen _ _ _ _ hrd, rscWriteBack_fifteen _ _ _ _ hrd, hset]
      exact h.aluWritePC_agree _
    · rw [rscWriteBack_of_ne_fifteen _ _ _ _ hrd, rscWriteBack_of_ne_fifteen _ _ _ _ hrd]
      cases i.setflags
      case false => exact (h.writeReg hrd _).advance_agree
      case true => exact ((h.writeReg hrd _).writeFlags _).advance_agree

end Sys2Proof.Machine
end

section
/-! SUPPORT. Lines of assembly and the shift fields (30_encoding R47, R52 to R56). -/
namespace Sys2Proof.Machine

/-! The fields of a shift -/

/-- The shift part printed for fields without the RRX pattern stands for those fields. -/
theorem shiftFields_asmShiftOf (st : SType) (imm5 : BitVec 5) (h : isRrxPattern st imm5 = false) :
    shiftFields (asmShiftOf st imm5) = some (st, imm5) := by
  by_cases hzero : imm5 = 0#5
  · subst hzero
    cases st
    case ror => cases h
    all_goals rfl
  · have hlt : imm5.toNat < 2 ^ 5 := imm5.isLt
    have hpos : imm5.toNat ≠ 0 := fun h0 => hzero (BitVec.eq_of_toNat_eq h0)
    have hrange : amountInRange st imm5.toNat = true := by
      cases st <;> simp only [amountInRange, decide_eq_true_eq] <;> omega
    have hmod : imm5.toNat % 32 = imm5.toNat := Nat.mod_eq_of_lt hlt
    rw [asmShiftOf_of_ne_zero st imm5 hzero, shiftFields, if_pos hrange, hmod, BitVec.ofNat_toNat, BitVec.setWidth_eq]

/-- The fields of a shift that assembles have no RRX pattern, and decode to the shift named: `imm5 = 00000` stands for
the amount 32 (30_encoding R47, R55). -/
theorem decodeImmShift_of_shiftFields (sh : AsmShift) (st : SType) (imm5 : BitVec 5)
    (h : shiftFields sh = some (st, imm5)) :
    isRrxPattern st imm5 = false ∧ decodeImmShift st imm5 = shiftOfLine sh := by
  cases sh with
  | omitted =>
    cases h
    exact ⟨rfl, rfl⟩
  | rrx => cases h
  | amount st' a =>
    rw [shiftFields, Option.ite_none_right_eq_some] at h
    obtain ⟨hrange, heq⟩ := h
    cases heq
    have ha : 1 ≤ a ∧ a ≤ 32 := by
      cases st <;> simp only [amountInRange, decide_eq_true_eq] at hrange <;> omega
    obtain ⟨hlo, hhi⟩ := ha
    by_cases htop : a = 32
    · subst htop
      cases st
      case lsl => cases hrange
      case ror => cases hrange
      all_goals exact ⟨rfl, rfl⟩
    · have htoNat : (BitVec.ofNat 5 (a % 32)).toNat = a := by
        rw [BitVec.toNat_ofNat]
        omega
      have hzero : BitVec.ofNat 5 (a % 32) ≠ 0#5 := by
        intro h0
        rw [h0, BitVec.toNat_ofNat] at htoNat
        omega
      obtain ⟨hlsl, hlsr, hasr, hror⟩ := decodeImmShift_of_ne_zero _ hzero
      refine ⟨by simp [isRrxPattern, hzero], ?_⟩
      cases st
      case lsl => rw [hlsl, htoNat, shiftOfLine]
      case lsr => rw [hlsr, htoNat, shiftOfLine]
      case asr => rw [hasr, htoNat, shiftOfLine]
      case ror => rw [hror, htoNat, shiftOfLine]

/-! The instruction of a line -/

/-- All that a line can assemble to. -/
theorem assemble_eq_some (l : AsmLine) (i : Instr) (h : assemble l = some i) :
    (l.shift = .rrx ∧ i = if l.sets then .rscsRrx (l.cond.getD .al) (l.rd.getD l.rn) l.rn l.rm
        else .rscRrx (l.cond.getD .al) (l.rd.getD l.rn) l.rn l.rm) ∨
      ∃ st imm5, shiftFields l.shift = some (st, imm5) ∧
        i = if l.sets then .rscs (l.cond.getD .al) (l.rd.getD l.rn) l.rn l.rm st imm5
          else .rsc (l.cond.getD .al) (l.rd.getD l.rn) l.rn l.rm st imm5 := by
  simp only [assemble] at h
  split at h
  · cases h
  split at h
  case isTrue hrrx => exact .inl ⟨hrrx, (Option.some.inj h).symm⟩
  case isFalse =>
    split at h
    case h_1 st imm5 hfields => exact .inr ⟨st, imm5, hfields, (Option.some.inj h).symm⟩
    case h_2 => cases h

section
variable (l : AsmLine) (hqual : l.qual ≠ some .narrow)
include hqual

theorem assemble_of_rrx (h : l.shift = .rrx) :
    assemble l = some (if l.sets then .rscsRrx (l.cond.getD .al) (l.rd.getD l.rn) l.rn l.rm
      else .rscRrx (l.cond.getD .al) (l.rd.getD l.rn) l.rn l.rm) := by
  rw [assemble, if_neg hqual, if_pos h]

theorem assemble_of_shiftFields {st : SType} {imm5 : BitVec 5} (h : shiftFields l.shift = some (st, imm5)) :
    assemble l = some (if l.sets then .rscs (l.cond.getD .al) (l.rd.getD l.rn) l.rn l.rm st imm5
      else .rsc (l.cond.getD .al) (l.rd.getD l.rn) l.rn l.rm st imm5) := by
  have hrrx : l.shift ≠ .rrx := by
    intro hrrx
    rw [hrrx] at h
    cases h
  simp only [assemble, if_neg hqual, if_neg hrrx, h]

end

/-- A condition printed, AL left out, is read back (30_encoding R53). -/
theorem getD_disassemble_cond (i : Instr) : (disassemble i).cond.getD .al = i.cond := by
  simp only [disassemble]
  split
  case isTrue h => exact h.symm
  case isFalse => rfl

theorem disassemble_qual_ne (i : Instr) : (disassemble i).qual ≠ some .narrow := nofun

/-- Settles O47: each part of the line is read back as the field it was printed from. -/
theorem disassembleThenAssemble : Obligations.DisassembleThenAssemble := by
  intro i h
  have hqual := disassemble_qual_ne i
  cases i with
  | rscRrx =>
    rw [assemble_of_rrx _ hqual rfl, getD_disassemble_cond]
    rfl
  | rscsRrx =>
    rw [assemble_of_rrx _ hqual rfl, getD_disassemble_cond]
    rfl
  | rsc c rd rn rm st imm5 =>
    simp only [Instr.wellFormed, Bool.not_eq_true'] at h
    rw [assemble_of_shiftFields _ hqual (shiftFields_asmShiftOf st imm5 h), getD_disassemble_cond]
    rfl
  | rscs c rd rn rm st imm5 =>
    simp only [Instr.wellFormed, Bool.not_eq_true'] at h
    rw [assemble_of_shiftFields _ hqual (shiftFields_asmShiftOf st imm5 h), getD_disassemble_cond]
    rfl

/-- Settles O48: the operands are the line's by the form chosen, and the shift is by its fields. -/
theorem assembledLineMeansItsText : Obligations.AssembledLineMeansItsText := by
  intro l i h
  rcases assemble_eq_some l i h with ⟨hrrx, rfl⟩ | ⟨st, imm5, hfields, rfl⟩
  · rw [hrrx]
    cases l.sets <;> exact ⟨rfl, rfl, rfl, rfl, rfl, rfl, rfl⟩
  · obtain ⟨hwf, hshift⟩ := decodeImmShift_of_shiftFields l.shift st imm5 hfields
    cases l.sets <;> exact ⟨by simp [Instr.wellFormed, hwf], rfl, rfl, rfl, rfl, rfl, hshift⟩

end Sys2Proof.Machine
end
